-- ==== Sys2Proof/Word.lean ====
section
/-! DEFINITION. The word types of the core: bytes, 16-bit words, register indices. -/

namespace Sys2Proof

/-- An 8-bit unsigned value: a general register, a timer, a byte of memory (R10, R13). -/
abbrev Byte := BitVec 8

/-- A 16-bit unsigned value: an instruction word, `I`, `PC`, a stack slot (R10, R13). -/
abbrev Word := BitVec 16

/-- A register index. It comes from a 4-bit nibble, so it is always in 0..15 (R22, R232). -/
abbrev Reg := Fin 16

/-- The flag register VF is general register 15 (R24). -/
abbrev regF : Reg := 15

/-- V0, the implicit operand of Bnnn (R129). -/
abbrev reg0 : Reg := 0

end Sys2Proof
end

