-- ==== Sys2Proof/Syntax.lean ====
section
/-! DEFINITION. The instructions: one constructor per row of spec/opcode_table.json (R3, R96, R101). -/

namespace Sys2Proof

/-- The 35 instructions of the core (R3). Operand fields are those of R91: `x`, `y` register indices, `n` a count 0..15,
`nn` an 8-bit immediate, `nnn` a 12-bit address. -/
inductive Instr where
  /-- 0000 `NOP` (R121) -/
  | nop
  /-- 00E0 `CLS` (R190) -/
  | cls
  /-- 00EE `RET` (R122) -/
  | ret
  /-- 1nnn `JP nnn` (R123) -/
  | jp (nnn : BitVec 12)
  /-- 2nnn `CALL nnn` (R124) -/
  | call (nnn : BitVec 12)
  /-- 3xnn `SE Vx, nn` (R125) -/
  | seImm (x : Reg) (nn : Byte)
  /-- 4xnn `SNE Vx, nn` (R126) -/
  | sneImm (x : Reg) (nn : Byte)
  /-- 5xy0 `SE Vx, Vy` (R127) -/
  | seReg (x y : Reg)
  /-- 6xnn `LD Vx, nn` (R140) -/
  | ldImm (x : Reg) (nn : Byte)
  /-- 7xnn `ADD Vx, nn` (R141) -/
  | addImm (x : Reg) (nn : Byte)
  /-- 8xy0 `LD Vx, Vy` (R142) -/
  | ldReg (x y : Reg)
  /-- 8xy1 `OR Vx, Vy` (R143) -/
  | orReg (x y : Reg)
  /-- 8xy2 `AND Vx, Vy` (R144) -/
  | andReg (x y : Reg)
  /-- 8xy3 `XOR Vx, Vy` (R145) -/
  | xorReg (x y : Reg)
  /-- 8xy4 `ADD Vx, Vy` (R146) -/
  | addReg (x y : Reg)
  /-- 8xy5 `SUB Vx, Vy` (R147) -/
  | subReg (x y : Reg)
  /-- 8xy6 `SHR Vx, Vy` (R148) -/
  | shr (x y : Reg)
  /-- 8xy7 `SUBN Vx, Vy` (R149) -/
  | subnReg (x y : Reg)
  /-- 8xyE `SHL Vx, Vy` (R150) -/
  | shl (x y : Reg)
  /-- 9xy0 `SNE Vx, Vy` (R128) -/
  | sneReg (x y : Reg)
  /-- Annn `LD I, nnn` (R170) -/
  | ldI (nnn : BitVec 12)
  /-- Bnnn `JP V0, nnn` (R129) -/
  | jpV0 (nnn : BitVec 12)
  /-- Cxnn `RND Vx, nn` (R151) -/
  | rnd (x : Reg) (nn : Byte)
  /-- Dxyn `DRW Vx, Vy, n` (R191) -/
  | drw (x y : Reg) (n : Fin 16)
  /-- Ex9E `SKP Vx` (R211) -/
  | skp (x : Reg)
  /-- ExA1 `SKNP Vx` (R212) -/
  | sknp (x : Reg)
  /-- Fx07 `LD Vx, DT` (R213) -/
  | ldVxDt (x : Reg)
  /-- Fx0A `LD Vx, K` (R214) -/
  | ldVxK (x : Reg)
  /-- Fx15 `LD DT, Vx` (R215) -/
  | ldDtVx (x : Reg)
  /-- Fx18 `LD ST, Vx` (R216) -/
  | ldStVx (x : Reg)
  /-- Fx1E `ADD I, Vx` (R171) -/
  | addI (x : Reg)
  /-- Fx29 `LD F, Vx` (R172) -/
  | ldF (x : Reg)
  /-- Fx33 `LD B, Vx` (R173) -/
  | ldB (x : Reg)
  /-- Fx55 `LD [I], Vx` (R174) -/
  | storeRegs (x : Reg)
  /-- Fx65 `LD Vx, [I]` (R175) -/
  | loadRegs (x : Reg)
  deriving DecidableEq, Repr

end Sys2Proof
end

