-- ==== Sys2Proof/WellFormed.lean ====
section
/-! DEFINITION. Which instruction words are well-formed, written from the list of unrecognized words in R97 and not from
the decoder. A term of `Instr` has no check of its own left: the types of its operands hold exactly the values that the
fields of R91 can carry (R22, R232). -/

namespace Sys2Proof

/-- R97, first entry: every 0nnn other than 0000, 00E0 and 00EE (C5: there is no machine-code call). -/
def groupZeroUnrecognized (w : Nat) : Bool :=
  (0x0001 ≤ w && w ≤ 0x00DF) || (0x00E1 ≤ w && w ≤ 0x00ED) || (0x00EF ≤ w && w ≤ 0x0FFF)

/-- R97: 5xyN with N ≠ 0. -/
def groupFiveUnrecognized (w : Nat) : Bool := w / 0x1000 == 0x5 && w % 0x10 != 0

/-- R97: 8xyN with N in 8, 9, A, B, C, D, F. -/
def groupEightUnrecognized (w : Nat) : Bool :=
  w / 0x1000 == 0x8 && [0x8, 0x9, 0xA, 0xB, 0xC, 0xD, 0xF].contains (w % 0x10)

/-- R97: 9xyN with N ≠ 0. -/
def groupNineUnrecognized (w : Nat) : Bool := w / 0x1000 == 0x9 && w % 0x10 != 0

/-- R97: ExNN with NN not in 9E, A1. -/
def groupEUnrecognized (w : Nat) : Bool := w / 0x1000 == 0xE && !([0x9E, 0xA1].contains (w % 0x100))

/-- R97: FxNN with NN not in 07, 0A, 15, 18, 1E, 29, 33, 55, 65. -/
def groupFUnrecognized (w : Nat) : Bool :=
  w / 0x1000 == 0xF && !([0x07, 0x0A, 0x15, 0x18, 0x1E, 0x29, 0x33, 0x55, 0x65].contains (w % 0x100))

/-- The unrecognized words "are exactly these" (R97). -/
def wordUnrecognized (w : Word) : Bool :=
  groupZeroUnrecognized w.toNat || groupFiveUnrecognized w.toNat || groupEightUnrecognized w.toNat ||
    groupNineUnrecognized w.toNat || groupEUnrecognized w.toNat || groupFUnrecognized w.toNat

/-- A word is a well-formed instruction word when R97 does not list it. -/
def wordWellFormed (w : Word) : Bool := !wordUnrecognized w

end Sys2Proof
end

