-- ==== Sys2Proof/Decode.lean ====
section
/-! DEFINITION. The decoder (R90, R91, R94, R96, R97), total on any word and on any bytes, and after it the encoder. -/

namespace Sys2Proof

/-- Why the decoder rejects. -/
inductive DecodeReject where
  /-- The word matches no row of R96 (R97). -/
  | unrecognized (w : Word)
  /-- Fewer than two bytes are left: an instruction is always two bytes long (R90, R100). -/
  | truncated
  deriving DecidableEq, Repr

/-- `w[hi:lo]`: the unsigned value of bits hi down to lo of w (R13). -/
def bitField (w : Word) (hi lo : Nat) : Nat := w.toNat / 2 ^ lo % 2 ^ (hi + 1 - lo)

/-- `d1 = w[15:12]` (R13). -/
def nibble1 (w : Word) : Nat := bitField w 15 12

/-- `d4 = w[3:0]` (R13). -/
def nibble4 (w : Word) : Nat := bitField w 3 0

/-- `x = w[11:8]` (R91). -/
def fieldX (w : Word) : Reg := Fin.ofNat 16 (bitField w 11 8)

/-- `y = w[7:4]` (R91). -/
def fieldY (w : Word) : Reg := Fin.ofNat 16 (bitField w 7 4)

/-- `n = w[3:0]`, the sprite height of Dxyn (R91). -/
def fieldN (w : Word) : Fin 16 := Fin.ofNat 16 (bitField w 3 0)

/-- `nn = w[7:0]` (R91). -/
def fieldNN (w : Word) : Byte := BitVec.ofNat 8 (bitField w 7 0)

/-- `nnn = w[11:0]` (R91). -/
def fieldNNN (w : Word) : BitVec 12 := BitVec.ofNat 12 (bitField w 11 0)

/-- The 0-group of R96: no fields, the whole word is matched. -/
def decodeGroup0 (w : Word) : Option Instr :=
  match bitField w 11 0 with
  | 0x000 => some .nop
  | 0x0E0 => some .cls
  | 0x0EE => some .ret
  | _ => none

/-- The 8-group of R96: sub-dispatch on d4. The source fixes d4 = 0 and d4 = E; the values 1..7 are the spec's
assignment (PRESUMED by the spec from general knowledge, GK3; log entry 18). -/
def decodeGroup8 (w : Word) : Option Instr :=
  match nibble4 w with
  | 0x0 => some (.ldReg (fieldX w) (fieldY w))
  | 0x1 => some (.orReg (fieldX w) (fieldY w))
  | 0x2 => some (.andReg (fieldX w) (fieldY w))
  | 0x3 => some (.xorReg (fieldX w) (fieldY w))
  | 0x4 => some (.addReg (fieldX w) (fieldY w))
  | 0x5 => some (.subReg (fieldX w) (fieldY w))
  | 0x6 => some (.shr (fieldX w) (fieldY w))
  | 0x7 => some (.subnReg (fieldX w) (fieldY w))
  | 0xE => some (.shl (fieldX w) (fieldY w))
  | _ => none

/-- The E-group of R96: sub-dispatch on the low byte. -/
def decodeGroupE (w : Word) : Option Instr :=
  match bitField w 7 0 with
  | 0x9E => some (.skp (fieldX w))
  | 0xA1 => some (.sknp (fieldX w))
  | _ => none

/-- The F-group of R96: sub-dispatch on the low byte. -/
def decodeGroupF (w : Word) : Option Instr :=
  match bitField w 7 0 with
  | 0x07 => some (.ldVxDt (fieldX w))
  | 0x0A => some (.ldVxK (fieldX w))
  | 0x15 => some (.ldDtVx (fieldX w))
  | 0x18 => some (.ldStVx (fieldX w))
  | 0x1E => some (.addI (fieldX w))
  | 0x29 => some (.ldF (fieldX w))
  | 0x33 => some (.ldB (fieldX w))
  | 0x55 => some (.storeRegs (fieldX w))
  | 0x65 => some (.loadRegs (fieldX w))
  | _ => none

/-- The opcode map of R96, dispatched on d1 (R94). Matching is strict: no sub-field is ignored (R97, D26, log entry 22). -/
def opcodeMap (w : Word) : Option Instr :=
  match nibble1 w with
  | 0x0 => decodeGroup0 w
  | 0x1 => some (.jp (fieldNNN w))
  | 0x2 => some (.call (fieldNNN w))
  | 0x3 => some (.seImm (fieldX w) (fieldNN w))
  | 0x4 => some (.sneImm (fieldX w) (fieldNN w))
  | 0x5 => if nibble4 w = 0 then some (.seReg (fieldX w) (fieldY w)) else none
  | 0x6 => some (.ldImm (fieldX w) (fieldNN w))
  | 0x7 => some (.addImm (fieldX w) (fieldNN w))
  | 0x8 => decodeGroup8 w
  | 0x9 => if nibble4 w = 0 then some (.sneReg (fieldX w) (fieldY w)) else none
  | 0xA => some (.ldI (fieldNNN w))
  | 0xB => some (.jpV0 (fieldNNN w))
  | 0xC => some (.rnd (fieldX w) (fieldNN w))
  | 0xD => some (.drw (fieldX w) (fieldY w) (fieldN w))
  | 0xE => decodeGroupE w
  | 0xF => decodeGroupF w
  | _ => none

/-- Decodes one word: the instruction of R96, or the rejection of R97. -/
def decode (w : Word) : Except DecodeReject Instr :=
  match opcodeMap w with
  | some i => .ok i
  | none => .error (.unrecognized w)

/-- The word that two consecutive bytes make, the one at the lower address in bits 15:8 (R69, R70). -/
def wordOfBytes (high low : Byte) : Word := (high.zeroExtend 16 <<< 8) ||| low.zeroExtend 16

/-- The byte of a word that stands at the lower address (R70). -/
def highByte (w : Word) : Byte := BitVec.ofNat 8 (w.toNat / 256)

/-- The byte of a word that stands at the higher address (R70). -/
def lowByte (w : Word) : Byte := BitVec.ofNat 8 (w.toNat % 256)

/-- Decodes the first instruction of a byte sequence and answers it with the bytes that follow it. -/
def decodeBytes : List Byte → Except DecodeReject (Instr × List Byte)
  | high :: low :: rest =>
    match decode (wordOfBytes high low) with
    | .ok i => .ok (i, rest)
    | .error r => .error r
  | _ => .error .truncated

/-- The decoder on a row of spec/opcode_table.json: the word laid out as memory holds it, high byte first (R70). -/
def decodeTableWord (nbits w : Nat) : Option Instr :=
  let word : Word := BitVec.ofNat 16 (w % 2 ^ nbits)
  match decodeBytes [highByte word, lowByte word] with
  | .ok (i, _) => some i
  | .error _ => none

/-! ### The encoder -/

/-- A word of layout `nnn` (R90): d1 and the low twelve bits. -/
def wordNNN (d1 : Nat) (nnn : BitVec 12) : Word := BitVec.ofNat 16 (d1 * 0x1000 + nnn.toNat)

/-- A word of layout `x, nn` (R90). -/
def wordXNN (d1 : Nat) (x : Reg) (nn : Byte) : Word := BitVec.ofNat 16 (d1 * 0x1000 + x.val * 0x100 + nn.toNat)

/-- A word of layout `x, y` with d4 (R90). -/
def wordXYN (d1 : Nat) (x y : Reg) (d4 : Nat) : Word :=
  BitVec.ofNat 16 (d1 * 0x1000 + x.val * 0x100 + y.val * 0x10 + d4)

/-- A word of layout `x` with a fixed low byte (R90). -/
def wordX (d1 : Nat) (x : Reg) (low : Nat) : Word := BitVec.ofNat 16 (d1 * 0x1000 + x.val * 0x100 + low)

/-- The word of an instruction, from the encodings of R96 and R101. -/
def encode : Instr → Word
  | .nop => 0x0000
  | .cls => 0x00E0
  | .ret => 0x00EE
  | .jp nnn => wordNNN 0x1 nnn
  | .call nnn => wordNNN 0x2 nnn
  | .seImm x nn => wordXNN 0x3 x nn
  | .sneImm x nn => wordXNN 0x4 x nn
  | .seReg x y => wordXYN 0x5 x y 0x0
  | .ldImm x nn => wordXNN 0x6 x nn
  | .addImm x nn => wordXNN 0x7 x nn
  | .ldReg x y => wordXYN 0x8 x y 0x0
  | .orReg x y => wordXYN 0x8 x y 0x1
  | .andReg x y => wordXYN 0x8 x y 0x2
  | .xorReg x y => wordXYN 0x8 x y 0x3
  | .addReg x y => wordXYN 0x8 x y 0x4
  | .subReg x y => wordXYN 0x8 x y 0x5
  | .shr x y => wordXYN 0x8 x y 0x6
  | .subnReg x y => wordXYN 0x8 x y 0x7
  | .shl x y => wordXYN 0x8 x y 0xE
  | .sneReg x y => wordXYN 0x9 x y 0x0
  | .ldI nnn => wordNNN 0xA nnn
  | .jpV0 nnn => wordNNN 0xB nnn
  | .rnd x nn => wordXNN 0xC x nn
  | .drw x y n => wordXYN 0xD x y n.val
  | .skp x => wordX 0xE x 0x9E
  | .sknp x => wordX 0xE x 0xA1
  | .ldVxDt x => wordX 0xF x 0x07
  | .ldVxK x => wordX 0xF x 0x0A
  | .ldDtVx x => wordX 0xF x 0x15
  | .ldStVx x => wordX 0xF x 0x18
  | .addI x => wordX 0xF x 0x1E
  | .ldF x => wordX 0xF x 0x29
  | .ldB x => wordX 0xF x 0x33
  | .storeRegs x => wordX 0xF x 0x55
  | .loadRegs x => wordX 0xF x 0x65

/-- The two bytes of an instruction in the order memory holds them (R70). -/
def encodeBytes (i : Instr) : List Byte := [highByte (encode i), lowByte (encode i)]

end Sys2Proof
end

