-- ==== Sys2Proof/Config.lean ====
section
/-! DEFINITION. What one instance of the core fixes (the parameters of R11) and the free value RAND. -/

namespace Sys2Proof

/-- Which register 8xy6 and 8xyE shift: the parameter `SHIFT_SOURCE` (R11, R148, R150, D7). -/
inductive ShiftSource where
  | vx
  | vy
  deriving DecidableEq, Repr

/-- The parameters of R11 that an instance of the core fixes at construction ("a model takes each as an argument").
The state carries them (log entry 1) and no transaction changes them. -/
structure Config where
  /-- `FONT`: the 80 bytes that memory holds at 0x000..0x04F after reset (R62, R63, D13). -/
  font : Vector Byte 80
  /-- `SHIFT_SOURCE`: the register 8xy6 and 8xyE shift (R148, R150, D7). -/
  shiftSource : ShiftSource
  /-- `VF_FLAG_LAST`: with x = F in 8xy4/5/6/7/E, whether the flag write follows the result write (R152, D8). -/
  vfFlagLast : Bool
  deriving DecidableEq, Repr

/-- `RAND` (R11, R21, R151, D20): the byte the k-th execution of Cxnn draws. A FREE VALUE: it has no body, so nothing can
be proved about it but that it is a byte (log entry 5). -/
opaque Config.randByte : Nat → Byte

end Sys2Proof
end

