-- ==== Sys2Proof/Machine/Params.lean ====
section
/-! DEFINITION. The default values the spec chooses for the parameters of R11 (D7, D8, D13). -/

namespace Sys2Proof

/-- Glyph 0, from the top row to the bottom row (R63). -/
def glyph0 : List Byte := [0xF0, 0x90, 0x90, 0x90, 0xF0]

/-- Glyph 1, from the top row to the bottom row (R63). -/
def glyph1 : List Byte := [0x20, 0x60, 0x20, 0x20, 0x70]

/-- Glyph 2, from the top row to the bottom row (R63). -/
def glyph2 : List Byte := [0xF0, 0x10, 0xF0, 0x80, 0xF0]

/-- Glyph 3, from the top row to the bottom row (R63). -/
def glyph3 : List Byte := [0xF0, 0x10, 0xF0, 0x10, 0xF0]

/-- Glyph 4, from the top row to the bottom row (R63). -/
def glyph4 : List Byte := [0x90, 0x90, 0xF0, 0x10, 0x10]

/-- Glyph 5, from the top row to the bottom row (R63). -/
def glyph5 : List Byte := [0xF0, 0x80, 0xF0, 0x10, 0xF0]

/-- Glyph 6, from the top row to the bottom row (R63). -/
def glyph6 : List Byte := [0xF0, 0x80, 0xF0, 0x90, 0xF0]

/-- Glyph 7, from the top row to the bottom row (R63). -/
def glyph7 : List Byte := [0xF0, 0x10, 0x20, 0x40, 0x40]

/-- Glyph 8, from the top row to the bottom row (R63). -/
def glyph8 : List Byte := [0xF0, 0x90, 0xF0, 0x90, 0xF0]

/-- Glyph 9, from the top row to the bottom row (R63). -/
def glyph9 : List Byte := [0xF0, 0x90, 0xF0, 0x10, 0xF0]

/-- Glyph A, from the top row to the bottom row (R63). -/
def glyphA : List Byte := [0xF0, 0x90, 0xF0, 0x90, 0x90]

/-- Glyph B, from the top row to the bottom row (R63). -/
def glyphB : List Byte := [0xE0, 0x90, 0xE0, 0x90, 0xE0]

/-- Glyph C, from the top row to the bottom row (R63). -/
def glyphC : List Byte := [0xF0, 0x80, 0x80, 0x80, 0xF0]

/-- Glyph D, from the top row to the bottom row (R63). -/
def glyphD : List Byte := [0xE0, 0x90, 0x90, 0x90, 0xE0]

/-- Glyph E, from the top row to the bottom row (R63). -/
def glyphE : List Byte := [0xF0, 0x80, 0xF0, 0x80, 0xF0]

/-- Glyph F, from the top row to the bottom row (R63). -/
def glyphF : List Byte := [0xF0, 0x80, 0xF0, 0x80, 0x80]

/-- The conventional CHIP-8 hexadecimal font, the default of `FONT` (R63).
PRESUMED: the spec supplies these bytes from general knowledge (GK1, D13; log entry 2). -/
def defaultFontBytes : List Byte :=
  glyph0 ++ glyph1 ++ glyph2 ++ glyph3 ++ glyph4 ++ glyph5 ++ glyph6 ++ glyph7 ++
    glyph8 ++ glyph9 ++ glyphA ++ glyphB ++ glyphC ++ glyphD ++ glyphE ++ glyphF

/-- The default of `FONT` as the 80 bytes at 0x000..0x04F (R10 `FONT_LEN`, R63). -/
def defaultFont : Vector Byte 80 := ⟨defaultFontBytes.toArray, by decide⟩

/-- The default of `SHIFT_SOURCE` (R11, D7).
DESIGN CHOICE of the spec (log entry 3). -/
def defaultShiftSource : ShiftSource := .vx

/-- The default of `VF_FLAG_LAST` (R11, D8).
DESIGN CHOICE of the spec (log entry 4). -/
def defaultVfFlagLast : Bool := true

/-- The instance of the core with every parameter at its default (R11). -/
def Config.default : Config where
  font := defaultFont
  shiftSource := defaultShiftSource
  vfFlagLast := defaultVfFlagLast

end Sys2Proof
end

