-- ==== Sys2Proof/Machine/State.lean ====
section
/-! DEFINITION. The state of the core (R20), the host transactions it may receive (R44), the faults it reports (R230) and
its state after reset (R260). -/

namespace Sys2Proof.Machine

/-- The framebuffer: 32 rows of 64 cells (R34). -/
abbrev Framebuffer := Vector (Vector Bool 64) 32

/-- Memory as address and byte pairs in one canonical form: addresses strictly rising, and no entry equal to what an
unlisted address reads as (log entry 29). -/
abbrev Memory := List Host.Cell

/-- The transactions of the core's interface (R44). Between transactions the core does nothing (R247). -/
inductive Transaction where
  /-- `load(bytes)` (R72) -/
  | load (bytes : List Byte)
  /-- `tick()` (R95) -/
  | tick
  /-- `tick_timers()` (R241) -/
  | tickTimers
  /-- `keypress(index, pressed)` (R244) -/
  | keypress (index : Nat) (pressed : Bool)
  /-- the framebuffer read (R49) -/
  | readFramebuffer
  /-- the sound-active read (R50) -/
  | readSoundActive
  deriving DecidableEq, Repr

/-- The state of one instance of the core. The fields from `v` to `mem` are the tuple of R20, under the spec's names;
`cfg`, `draws` and `schedule` are the model's own (log entries 1, 5, 6). -/
structure State where
  /-- V0..VF (R22); VF is V[15] (R24) -/
  v : Vector Byte 16
  /-- the index register I (R26) -/
  i : Word
  /-- the program counter PC (R27) -/
  pc : Word
  /-- the stack pointer SP, the depth 0..16 (R29) -/
  sp : Fin 17
  /-- the return-address stack (R30) -/
  stack : Vector Word 16
  /-- the delay timer DT (R31) -/
  dt : Byte
  /-- the sound timer ST (R32) -/
  st : Byte
  /-- the key latches (R33) -/
  key : Vector Bool 16
  /-- the framebuffer FB (R34) -/
  fb : Framebuffer
  /-- the memory Mem (R35, R60) -/
  mem : Memory
  /-- the parameters of this instance (R11) -/
  cfg : Config
  /-- how many bytes have been drawn from `RAND` (R21, R151) -/
  draws : Nat
  /-- the host transactions still to come; an empty list stands for a host that calls `tick` (D34) -/
  schedule : List Transaction
  deriving DecidableEq, Repr

/-- What a fault raised by a tick carries of the faulting instruction (R231). -/
structure FaultSite where
  /-- the address of the faulting instruction, which is PC before the tick -/
  pc : Word
  /-- the fetched instruction word -/
  word : Word
  deriving DecidableEq, Repr

/-- The faults of R230, with the payload of R231; its code 8 is no fault but the error of a `keypress`, which
`CallerError` holds (R237, R244). A fault leaves every piece of the core's state as it was before the
transaction (R236), so no state comes with it. Each is SAFE: a run of the model ends there (log entry 7). -/
inductive Fault where
  /-- code 1, raised by `load` when the ROM is longer than 3584 bytes; carries the rejected length. Safe (log entry 23). -/
  | romTooLarge (length : Nat)
  /-- code 2, raised by the fetch of a tick when PC + 1 > 0xFFF; carries the PC. Safe (D2, log entry 9). -/
  | fetchOutOfRange (pc : Word)
  /-- code 3, raised by the decode of a tick for a word R96 does not list. Safe (R97, log entry 22). -/
  | unrecognizedOpcode (site : FaultSite)
  /-- code 4, raised by 2nnn when SP = 16. Safe (R124). -/
  | stackOverflow (site : FaultSite)
  /-- code 5, raised by 00EE when SP = 0. Safe (R122). -/
  | stackUnderflow (site : FaultSite)
  /-- code 6, raised by Dxyn, Fx33, Fx55, Fx65 when some address of the access is above 0xFFF; carries the highest
  address the instruction would access. Safe (D3, log entry 10). -/
  | memoryOutOfRange (site : FaultSite) (addr : Nat)
  /-- code 7, raised by Ex9E and ExA1 when Vx > 15; carries Vx. Safe (D9, log entry 11). -/
  | keyIndexOutOfRange (site : FaultSite) (value : Byte)
  deriving DecidableEq, Repr

/-- Why an instruction has no meaning here. -/
inductive Refusal where
  /-- Raised by `exec` for an instruction that has no meaning yet; no arm of this model raises it. Safe. -/
  | notModelled (mnemonic : String)
  deriving DecidableEq, Repr

/-- The outcome of a step, a meaning or a transaction of this machine. -/
abbrev Result := Host.Outcome State Fault Refusal

/-- Construction of an instance of the core with the parameters `cfg` (R260): the reset values of R20. Memory lists
nothing: every address reads as its reset contents (R62). -/
def State.construct (cfg : Config) : State where
  v := Vector.replicate 16 0x00
  i := 0x0000
  pc := 0x0200
  sp := 0
  stack := Vector.replicate 16 0x0000
  dt := 0x00
  st := 0x00
  key := Vector.replicate 16 false
  fb := Vector.replicate 32 (Vector.replicate 64 false)
  mem := []
  cfg := cfg
  draws := 0
  schedule := []

/-- The state right after reset, that is after construction with the default parameters (R11, R260). -/
def State.reset : State := State.construct Config.default

end Sys2Proof.Machine
end

