-- ==== Sys2Proof/Machine/Ops.lean ====
section
/-! DEFINITION. The named operations over registers, memory, the stack and the PC that every meaning uses, and the one
operation that raises a fault. -/

namespace Sys2Proof.Machine

/-! ### Registers: one home each, read and written through these -/

/-- `V[x]` (R15, R22): none is hardwired, banked or aliased. -/
def State.getV (s : State) (x : Reg) : Byte := s.v[x.val]

/-- `V[x] <- b` (R15, R22). -/
def State.setV (s : State) (x : Reg) (b : Byte) : State := { s with v := s.v.set x.val b }

/-- `I <- a` (R26). -/
def State.setI (s : State) (a : Word) : State := { s with i := a }

/-- `PC <- a` (R27). -/
def State.setPc (s : State) (a : Word) : State := { s with pc := a }

/-- `DT <- b` (R31). -/
def State.setDt (s : State) (b : Byte) : State := { s with dt := b }

/-- `ST <- b` (R32). -/
def State.setSt (s : State) (b : Byte) : State := { s with st := b }

/-- `Key[k]` (R33). -/
def State.getKey (s : State) (k : Fin 16) : Bool := s.key[k.val]

/-- `Key[k] <- p` (R33, R244): only the host's `keypress` uses it. -/
def State.setKey (s : State) (k : Fin 16) (p : Bool) : State := { s with key := s.key.set k.val p }

/-- The framebuffer replaced whole (R34). -/
def State.setFb (s : State) (fb : Framebuffer) : State := { s with fb := fb }

/-- The memory replaced whole. -/
def State.setMem (s : State) (m : Memory) : State := { s with mem := m }

/-- The model's counter of bytes drawn from `RAND` (log entry 5). -/
def State.setDraws (s : State) (n : Nat) : State := { s with draws := n }

/-- The model's list of host transactions still to come (log entry 6). -/
def State.setSchedule (s : State) (ts : List Transaction) : State := { s with schedule := ts }

/-! ### The PC -/

/-- The advance of a tick (R93) and the extra advance of a taken skip (R120): `PC <- (PC + 2) mod 2^16`. -/
def State.advancePc (s : State) : State := s.setPc (s.pc + 2)

/-- The rewind of Fx0A: `PC <- (PC - 2) mod 2^16` (R214). -/
def State.rewindPc (s : State) : State := s.setPc (s.pc - 2)

/-- A conditional skip (R120). -/
def State.skipIf (s : State) (taken : Bool) : State := if taken then s.advancePc else s

/-! ### Memory -/

/-- The highest valid address, 0xFFF (R10, R66). -/
abbrev maxAddr : Nat := 0xFFF

/-- Where `load` puts a ROM, `LOAD_ORIGIN` (R10). -/
abbrev loadOrigin : Nat := 0x200

/-- The longest ROM, `MAX_ROM` = 4096 - 0x200 = 3584 bytes (R10, R72). -/
abbrev maxRom : Nat := 3584

/-- What an address that memory does not list reads as: its reset contents, which are the font at 0x000..0x04F and 0x00
everywhere else (R62). -/
def Memory.unlisted (font : Vector Byte 80) (a : Nat) : Byte := if h : a < 80 then font[a] else 0x00

/-- The byte at address `a`. -/
def Memory.read (font : Vector Byte 80) : Memory → Nat → Byte
  | [], a => Memory.unlisted font a
  | (k, b) :: m, a => if k = a then b else Memory.read font m a

/-- An entry put before a memory whose addresses are all higher, unless it says what an unlisted address reads as. -/
def Memory.cons (font : Vector Byte 80) (a : Nat) (b : Byte) (m : Memory) : Memory :=
  if b = Memory.unlisted font a then m else (a, b) :: m

/-- The memory with the byte at `a` written, in canonical form again. -/
def Memory.write (font : Vector Byte 80) : Memory → Nat → Byte → Memory
  | [], a, b => Memory.cons font a b []
  | (k, c) :: m, a, b =>
    if a < k then Memory.cons font a b ((k, c) :: m)
    else if a = k then Memory.cons font a b m
    else (k, c) :: Memory.write font m a b

/-- The canonical form: addresses strictly rising and inside the address space, and no entry equal to what an unlisted
address reads as. -/
abbrev Memory.wf (font : Vector Byte 80) (m : Memory) : Prop :=
  m.Pairwise (fun c d => c.1 < d.1) ∧ ∀ c ∈ m, c.1 ≤ maxAddr ∧ c.2 ≠ Memory.unlisted font c.1

/-- `Mem[a]`. An instruction checks that `a` is valid before it reads (R66, `checkRange`). -/
def State.byteAt (s : State) (a : Nat) : Byte := Memory.read s.cfg.font s.mem a

/-- `Mem[a] <- b` (R68). An instruction checks that `a` is valid before it writes (R66, `checkRange`); there is no byte above
0xFFF to write. -/
def State.writeByte (s : State) (a : Nat) (b : Byte) : State :=
  if a ≤ maxAddr then s.setMem (Memory.write s.cfg.font s.mem a b) else s

/-- Bytes written at ascending addresses from `a` (R70). -/
def State.writeBytes (s : State) (a : Nat) : List Byte → State
  | [] => s
  | b :: bs => (s.writeByte a b).writeBytes (a + 1) bs

/-- `FetchWord(a)` (R69): none stands for the fault FetchOutOfRange. The address may be odd (R71, log entry 15). -/
def State.fetchWord (s : State) (a : Nat) : Option Word :=
  if maxAddr < a + 1 then none else some (wordOfBytes (s.byteAt a) (s.byteAt (a + 1)))

/-! ### The stack -/

/-- `push` (R30): none stands for the fault StackOverflow, raised when SP = 16. -/
def State.push (s : State) (a : Word) : Option State :=
  if h : s.sp.val < 16 then
    some { s with stack := s.stack.set s.sp.val a, sp := ⟨s.sp.val + 1, by omega⟩ }
  else none

/-- `pop` (R30): none stands for the fault StackUnderflow, raised when SP = 0. The slot keeps its value (D33, log entry 33). -/
def State.pop (s : State) : Option (Word × State) :=
  if h : 0 < s.sp.val then
    some (s.stack[s.sp.val - 1], { s with sp := ⟨s.sp.val - 1, by omega⟩ })
  else none

/-! ### Faults -/

/-- Raising a fault, the one exception mechanism of the core (R235): the transaction is abandoned, nothing is saved in the
core's state, no mode or mask changes, control goes nowhere, and the fault is returned to the host. The state stays as it was
before the transaction (R236), so none is given. There is no return from a fault (R237). -/
def raise (f : Fault) : Result := .fault f

/-- The cause code that a fault result carries (R230, R231, D5). A label with no behaviour attached. -/
def Fault.code : Fault → Nat
  | .romTooLarge _ => 1
  | .fetchOutOfRange _ => 2
  | .unrecognizedOpcode _ => 3
  | .stackOverflow _ => 4
  | .stackUnderflow _ => 5
  | .memoryOutOfRange _ _ => 6
  | .keyIndexOutOfRange _ _ => 7

/-- What a fault of the instruction `ins` says of it (R231). In the execute phase PC is already advanced by 2 (R28), and the
word is the one that `ins` was decoded from (log entry 8). -/
def faultSite (ins : Instr) (s : State) : FaultSite := { pc := s.pc - 2, word := encode ins }

/-- The range check of an instruction that accesses the `len` addresses from I upward, before it changes any state (R66,
R176). The sum is on naturals, without wrap (R14). With `len = 0` no address is accessed and nothing is checked (R191). -/
def checkRange (ins : Instr) (s : State) (len : Nat) (done : Result) : Result :=
  if 0 < len ∧ maxAddr < s.i.toNat + len - 1 then
    raise (.memoryOutOfRange (faultSite ins s) (s.i.toNat + len - 1))
  else done

end Sys2Proof.Machine
end

