-- ==== Sys2Proof/Machine/Flags.lean ====
section
/-! DEFINITION. The flag values of R24 and the one procedure that writes a result and a flag (R152). -/

namespace Sys2Proof.Machine

/-- A condition as the flag value 1 or 0. -/
def flagOf (b : Bool) : Byte := if b then 1 else 0

/-- The carry of 8xy4: 1 iff the unsigned sum exceeds 255 (R146). -/
def carryFlag (a b : Byte) : Byte := flagOf (255 < a.toNat + b.toNat)

/-- The not-borrow of a - b: 1 iff a ≥ b. 8xy5 uses it on Vx, Vy (R147), 8xy7 on Vy, Vx (R149, DEDUCED by the spec, log
entry 27). -/
def notBorrowFlag (a b : Byte) : Byte := flagOf (b.toNat ≤ a.toNat)

/-- The bit that 8xy6 shifts out: bit 0 before the shift (R148). -/
def shiftRightFlag (a : Byte) : Byte := a &&& 0x01

/-- The bit that 8xyE shifts out: bit 7 before the shift (R150). -/
def shiftLeftFlag (a : Byte) : Byte := a >>> 7

/-- The collision of Dxyn: 1 iff a set cell was turned off (R191). -/
def collisionFlag (hit : Bool) : Byte := flagOf hit

/-- `writeResultAndFlag(x, r, f)` (R152): the order of the two writes is the parameter `VF_FLAG_LAST` (D8) and matters
only when x = F. -/
def writeResultAndFlag (x : Reg) (r f : Byte) (s : State) : State :=
  if s.cfg.vfFlagLast then (s.setV x r).setV regF f else (s.setV regF f).setV x r

end Sys2Proof.Machine
end

