-- ==== Sys2Proof/Machine/Operands.lean ====
section
/-! DEFINITION. How each operand form yields its value: immediates, jump targets, the shifted register, keys, digits,
glyphs, random bytes, sprites and runs of registers. -/

namespace Sys2Proof.Machine

/-- A 12-bit address as a 16-bit value: `zext_16(nnn)` (R91). -/
def targetOf (nnn : BitVec 12) : Word := nnn.zeroExtend 16

/-- A byte as a 16-bit value: `zext_16(b)` (R91). -/
def wideByte (b : Byte) : Word := b.zeroExtend 16

/-- The register that 8xy6 and 8xyE shift, by `SHIFT_SOURCE` (R148, R150, D7). -/
def shiftOperand (x y : Reg) (s : State) : Byte :=
  match s.cfg.shiftSource with
  | .vx => s.getV x
  | .vy => s.getV y

/-- `keyIndex(v)` (R210): none stands for the fault KeyIndexOutOfRange, raised when v > 15. -/
def keyIndex (b : Byte) : Option (Fin 16) := if h : b.toNat < 16 then some ⟨b.toNat, h⟩ else none

/-- The lowest pressed key, found by a scan "in index order" (R214). -/
def firstPressedKey (s : State) : Option (Fin 16) := (List.finRange 16).find? fun k => s.getKey k

/-- The next byte of `RAND` (R151): a free value (log entry 5). -/
def drawRand (s : State) : Byte := Config.randByte s.draws

/-- The address of the font glyph that Fx29 points at: Vx × 5, not masked (R172, U19, log entry 28). -/
def glyphAddress (b : Byte) : Word := wideByte b * 5

/-- The three decimal digits that Fx33 stores: hundreds, tens, units (R173). -/
def bcdDigits (b : Byte) : List Byte :=
  [BitVec.ofNat 8 (b.toNat / 100), BitVec.ofNat 8 (b.toNat / 10 % 10), BitVec.ofNat 8 (b.toNat % 10)]

/-- The registers V0..Vx that Fx55 stores, in order (R174). -/
def registersThrough (x : Reg) (s : State) : List Byte := s.v.toList.take (x.val + 1)

/-- The register file after Fx65: V0..Vx loaded from I upward, the others as they were (R175). -/
def loadedRegisters (x : Reg) (s : State) : Vector Byte 16 :=
  Vector.ofFn fun k => if k ≤ x then s.byteAt (s.i.toNat + k.val) else s.getV k

/-- The rows of the sprite that Dxyn draws: n bytes from I upward (R191). -/
def spriteRows (n : Nat) (s : State) : List Byte := (List.range n).map fun r => s.byteAt (s.i.toNat + r)

/-! ### The framebuffer -/

/-- Cell (x, y): column x, row y (R34). -/
def Framebuffer.cell (fb : Framebuffer) (x : Fin 64) (y : Fin 32) : Bool := fb[y.val][x.val]

/-- The framebuffer with cell (x, y) inverted. -/
def Framebuffer.flip (fb : Framebuffer) (x : Fin 64) (y : Fin 32) : Framebuffer :=
  fb.set y.val (fb[y.val].set x.val (!fb.cell x y))

/-- The blank framebuffer (R190). -/
def Framebuffer.blank : Framebuffer := Vector.replicate 32 (Vector.replicate 64 false)

/-- What a draw in progress holds: the framebuffer, and whether a set cell was turned off so far. -/
structure Canvas where
  fb : Framebuffer
  hit : Bool
  deriving DecidableEq, Repr

/-- One bit of a sprite, at column c of row r (R191): a 1 bit inverts its cell, and a set cell about to be cleared is a
collision; a 0 bit changes nothing. Coordinates wrap on both axes. -/
def drawBit (x0 y0 r : Nat) (row : Byte) (a : Canvas) (c : Nat) : Canvas :=
  if row.getLsbD (7 - c) then
    let x := Fin.ofNat 64 (x0 + c)
    let y := Fin.ofNat 32 (y0 + r)
    { fb := a.fb.flip x y, hit := a.hit || a.fb.cell x y }
  else a

/-- One row of a sprite: eight bits, the most significant first (R191). -/
def drawRow (x0 y0 : Nat) (a : Canvas) (rowAt : Byte × Nat) : Canvas :=
  (List.range 8).foldl (drawBit x0 y0 rowAt.2 rowAt.1) a

/-- All rows of a sprite, from the top (R191). -/
def drawSprite (x0 y0 : Nat) (rows : List Byte) (fb : Framebuffer) : Canvas :=
  rows.zipIdx.foldl (drawRow x0 y0) { fb := fb, hit := false }

end Sys2Proof.Machine
end

