-- ==== Sys2Proof/Machine/Alu.lean ====
section
/-! DEFINITION. The register and arithmetic-logic instructions (41_register_alu.md). Operands are read before any register
is written (R15); arithmetic is unsigned and wraps modulo 256 (R153). -/

namespace Sys2Proof.Machine

/-- LD Vx, nn (R140). -/
def execLdImm (x : Reg) (nn : Byte) (s : State) : Result := .next (s.setV x nn)

/-- ADD Vx, nn (R141): no flag. -/
def execAddImm (x : Reg) (nn : Byte) (s : State) : Result := .next (s.setV x (s.getV x + nn))

/-- LD Vx, Vy (R142). -/
def execLdReg (x y : Reg) (s : State) : Result := .next (s.setV x (s.getV y))

/-- OR Vx, Vy (R143): VF is not reset (R25, log entry 34). -/
def execOrReg (x y : Reg) (s : State) : Result := .next (s.setV x (s.getV x ||| s.getV y))

/-- AND Vx, Vy (R144): VF is not reset (R25, log entry 34). -/
def execAndReg (x y : Reg) (s : State) : Result := .next (s.setV x (s.getV x &&& s.getV y))

/-- XOR Vx, Vy (R145): VF is not reset (R25, log entry 34). -/
def execXorReg (x y : Reg) (s : State) : Result := .next (s.setV x (s.getV x ^^^ s.getV y))

/-- ADD Vx, Vy (R146). -/
def execAddReg (x y : Reg) (s : State) : Result :=
  .next (writeResultAndFlag x (s.getV x + s.getV y) (carryFlag (s.getV x) (s.getV y)) s)

/-- SUB Vx, Vy (R147). -/
def execSubReg (x y : Reg) (s : State) : Result :=
  .next (writeResultAndFlag x (s.getV x - s.getV y) (notBorrowFlag (s.getV x) (s.getV y)) s)

/-- SHR Vx, Vy (R148). -/
def execShr (x y : Reg) (s : State) : Result :=
  .next (writeResultAndFlag x (shiftOperand x y s >>> 1) (shiftRightFlag (shiftOperand x y s)) s)

/-- SUBN Vx, Vy (R149). -/
def execSubnReg (x y : Reg) (s : State) : Result :=
  .next (writeResultAndFlag x (s.getV y - s.getV x) (notBorrowFlag (s.getV y) (s.getV x)) s)

/-- SHL Vx, Vy (R150). -/
def execShl (x y : Reg) (s : State) : Result :=
  .next (writeResultAndFlag x (shiftOperand x y s <<< 1) (shiftLeftFlag (shiftOperand x y s)) s)

/-- RND Vx, nn (R151): the drawn byte is a free value, a new one at each execution (log entry 5). -/
def execRnd (x : Reg) (nn : Byte) (s : State) : Result :=
  .next ((s.setV x (drawRand s &&& nn)).setDraws (s.draws + 1))

end Sys2Proof.Machine
end

