-- ==== Sys2Proof/Machine/Control.lean ====
section
/-! DEFINITION. The control flow instructions (40_control_flow.md). PC is the value already advanced by 2 (R28). -/

namespace Sys2Proof.Machine

/-- NOP (R121). -/
def execNop (s : State) : Result := .next s

/-- RET (R122): the popped value is used as it stands. -/
def execRet (s : State) : Result :=
  match s.pop with
  | some (a, s') => .next (s'.setPc a)
  | none => raise (.stackUnderflow (faultSite .ret s))

/-- JP nnn (R123). -/
def execJp (nnn : BitVec 12) (s : State) : Result := .next (s.setPc (targetOf nnn))

/-- CALL nnn (R124): pushes the advanced PC. -/
def execCall (nnn : BitVec 12) (s : State) : Result :=
  match s.push s.pc with
  | some s' => .next (s'.setPc (targetOf nnn))
  | none => raise (.stackOverflow (faultSite (.call nnn) s))

/-- SE Vx, nn (R125). -/
def execSeImm (x : Reg) (nn : Byte) (s : State) : Result := .next (s.skipIf (s.getV x == nn))

/-- SNE Vx, nn (R126). -/
def execSneImm (x : Reg) (nn : Byte) (s : State) : Result := .next (s.skipIf (s.getV x != nn))

/-- SE Vx, Vy (R127). -/
def execSeReg (x y : Reg) (s : State) : Result := .next (s.skipIf (s.getV x == s.getV y))

/-- SNE Vx, Vy (R128). -/
def execSneReg (x y : Reg) (s : State) : Result := .next (s.skipIf (s.getV x != s.getV y))

/-- JP V0, nnn (R129): the sum is not truncated to 12 bits (D24, log entry 19). -/
def execJpV0 (nnn : BitVec 12) (s : State) : Result := .next (s.setPc (targetOf nnn + wideByte (s.getV reg0)))

end Sys2Proof.Machine
end

