-- ==== Sys2Proof/Machine/Display.lean ====
section
/-! DEFINITION. The display instructions (43_display.md). -/

namespace Sys2Proof.Machine

/-- CLS (R190): VF is unchanged. -/
def execCls (s : State) : Result := .next (s.setFb Framebuffer.blank)

/-- DRW Vx, Vy, n (R191): the coordinates are sampled before VF is written (D25, log entry 20); VF is written on every
execution, even with n = 0 (log entry 21). -/
def execDrw (x y : Reg) (n : Fin 16) (s : State) : Result :=
  let drawn := drawSprite ((s.getV x).toNat % 64) ((s.getV y).toNat % 32) (spriteRows n.val s) s.fb
  checkRange (.drw x y n) s n.val (.next ((s.setFb drawn.fb).setV regF (collisionFlag drawn.hit)))

end Sys2Proof.Machine
end

