-- ==== Sys2Proof/Machine/IndexMemory.lean ====
section
/-! DEFINITION. The index register and memory instructions (42_index_memory.md). -/

namespace Sys2Proof.Machine

/-- LD I, nnn (R170). -/
def execLdI (nnn : BitVec 12) (s : State) : Result := .next (s.setI (targetOf nnn))

/-- ADD I, Vx (R171): modulo 2^16, VF not written (D11, log entry 14). -/
def execAddI (x : Reg) (s : State) : Result := .next (s.setI (s.i + wideByte (s.getV x)))

/-- LD F, Vx (R172). -/
def execLdF (x : Reg) (s : State) : Result := .next (s.setI (glyphAddress (s.getV x)))

/-- LD B, Vx (R173): I is unchanged. -/
def execLdB (x : Reg) (s : State) : Result :=
  checkRange (.ldB x) s 3 (.next (s.writeBytes s.i.toNat (bcdDigits (s.getV x))))

/-- LD [I], Vx (R174): I is unchanged (D10, log entry 13). -/
def execStoreRegs (x : Reg) (s : State) : Result :=
  checkRange (.storeRegs x) s (x.val + 1) (.next (s.writeBytes s.i.toNat (registersThrough x s)))

/-- LD Vx, [I] (R175): I is unchanged (D10, log entry 13). -/
def execLoadRegs (x : Reg) (s : State) : Result :=
  checkRange (.loadRegs x) s (x.val + 1) (.next { s with v := loadedRegisters x s })

end Sys2Proof.Machine
end

