-- ==== Sys2Proof/Machine/KeyTimer.lean ====
section
/-! DEFINITION. The key and timer instructions (44_timers_keys.md). No instruction writes a key latch (R33, R243). -/

namespace Sys2Proof.Machine

/-- SKP Vx (R211). -/
def execSkp (x : Reg) (s : State) : Result :=
  match keyIndex (s.getV x) with
  | some k => .next (s.skipIf (s.getKey k))
  | none => raise (.keyIndexOutOfRange (faultSite (.skp x) s) (s.getV x))

/-- SKNP Vx (R212). -/
def execSknp (x : Reg) (s : State) : Result :=
  match keyIndex (s.getV x) with
  | some k => .next (s.skipIf (!s.getKey k))
  | none => raise (.keyIndexOutOfRange (faultSite (.sknp x) s) (s.getV x))

/-- LD Vx, DT (R213). -/
def execLdVxDt (x : Reg) (s : State) : Result := .next (s.setV x s.dt)

/-- LD Vx, K (R214): with no key pressed the PC is rewound onto this instruction; the latch is a level and is not cleared
(D12, C4, log entry 12). -/
def execLdVxK (x : Reg) (s : State) : Result :=
  match firstPressedKey s with
  | some k => .next (s.setV x (BitVec.ofNat 8 k.val))
  | none => .next s.rewindPc

/-- LD DT, Vx (R215). -/
def execLdDtVx (x : Reg) (s : State) : Result := .next (s.setDt (s.getV x))

/-- LD ST, Vx (R216). -/
def execLdStVx (x : Reg) (s : State) : Result := .next (s.setSt (s.getV x))

end Sys2Proof.Machine
end

