-- ==== Sys2Proof/Machine/Transactions.lean ====
section
/-! DEFINITION. The transactions of the core's interface (R44): `tick` and the five others, each atomic (R45), and what the
host is answered. -/

namespace Sys2Proof.Machine

/-- `tick()` (R92 to R95): fetch, advance the PC, decode, execute. The first check that fails decides the fault (R234). A
fault leaves the state as it was, the advance of the PC undone (R236). -/
def tick (s : State) : Result :=
  match s.fetchWord s.pc.toNat with
  | none => raise (.fetchOutOfRange s.pc)
  | some w =>
    match decode w with
    | .ok ins => exec ins s.advancePc
    | .error _ => raise (.unrecognizedOpcode { pc := s.pc, word := w })

/-- `load(bytes)` (R72): a longer ROM than 3584 bytes is rejected whole (C3, D14, log entry 23). -/
def load (bytes : List Byte) (s : State) : Result :=
  if maxRom < bytes.length then raise (.romTooLarge bytes.length) else .next (s.writeBytes loadOrigin bytes)

/-- One timer counted down by one, with the floor at 0 (R31, R241). -/
def countDown (b : Byte) : Byte := if b = 0 then 0 else b - 1

/-- `tick_timers()` (R241): both timers (C2, D30, log entry 26). It cannot fault. -/
def tickTimers (s : State) : State := (s.setDt (countDown s.dt)).setSt (countDown s.st)

/-- The error of a caller: R44 lists it apart from the faults, and the core "stays fully usable" after it (R237). -/
inductive CallerError where
  /-- code 8, answered by `keypress` when the index is above 15; carries the index (R230, R231, R244). -/
  | keypressIndexOutOfRange (index : Nat)
  deriving DecidableEq, Repr

/-- The cause code of the error of a caller (R230). -/
def CallerError.code : CallerError → Nat
  | .keypressIndexOutOfRange _ => 8

/-- `keypress(index, pressed)` (R244): an index above 15 changes no latch (C7, D16, log entry 24), and the core goes on. -/
def keypress (index : Nat) (pressed : Bool) (s : State) : State :=
  if h : index < 16 then s.setKey ⟨index, h⟩ pressed else s

/-- What `keypress` answers its caller: Ok, or that the index is out of range (R44, R244). -/
def keypressResponse (index : Nat) : Except CallerError Unit :=
  if index < 16 then .ok () else .error (.keypressIndexOutOfRange index)

/-- The framebuffer read (R49): the 2048 cells in row-major order, element y*64 + x being cell (x, y) (D23, log entry 25). -/
def framebufferRead (s : State) : List Bool := s.fb.toList.flatMap Vector.toList

/-- The sound-active read (R50): ST ≠ 0 (D22, log entry 25). -/
def soundActive (s : State) : Bool := s.st != 0

/-- One transaction of the host (R44). The two reads change no state (R49, R50). -/
def transact (t : Transaction) (s : State) : Result :=
  match t with
  | .load bytes => load bytes s
  | .tick => tick s
  | .tickTimers => .next (tickTimers s)
  | .keypress index pressed => .next (keypress index pressed s)
  | .readFramebuffer => .next s
  | .readSoundActive => .next s

/-- What a transaction returns to the host: the result column of R44. -/
inductive Response where
  | ok
  | failed (f : Fault)
  /-- `Error(KeypressIndexOutOfRange)`, with no state changed (R244) -/
  | error (e : CallerError)
  | framebuffer (cells : List Bool)
  | sound (active : Bool)
  /-- no transaction of this model answers so: it stands for a tick that `exec` refuses -/
  | noMeaning (r : Refusal)
  deriving DecidableEq, Repr

/-- The response to transaction `t` in state `s` (R44). -/
def respond (t : Transaction) (s : State) : Response :=
  match transact t s with
  | .fault f => .failed f
  | .refused r => .noMeaning r
  | .next _ =>
    match t with
    | .readFramebuffer => .framebuffer (framebufferRead s)
    | .readSoundActive => .sound (soundActive s)
    | .keypress index _ =>
      match keypressResponse index with
      | .ok _ => .ok
      | .error e => .error e
    | .load _ | .tick | .tickTimers => .ok

/-- The core's state once transaction `t` has returned, whether with Ok or with a fault: a fault leaves it as it was (R236),
and the core can be called again (R237, D28). -/
def stateAfter (t : Transaction) (s : State) : State :=
  match transact t s with
  | .next s' => s'
  | .fault _ => s
  | .refused _ => s

/-- The core's state once the host has made the calls `ts` in order, going on after a fault (R237, "continue"). -/
def stateAfterAll : List Transaction → State → State
  | [], s => s
  | t :: ts, s => stateAfterAll ts (stateAfter t s)

/-- The transaction that comes next and the ones after it: the first of the schedule, or a tick where none is listed (D34,
log entry 6). -/
def nextTransaction (s : State) : Transaction × List Transaction :=
  match s.schedule with
  | [] => (.tick, [])
  | t :: ts => (t, ts)

/-- One step of the machine: the next transaction of the host (R44, "gives each transaction one step"). -/
def runNext (s : State) : Result := transact (nextTransaction s).1 (s.setSchedule (nextTransaction s).2)

/-- Where the next fetch can happen: the PC if both of its bytes exist (R69), otherwise the load origin. -/
def fetchablePc (s : State) : Word := if s.pc.toNat + 1 ≤ maxAddr then s.pc else BitVec.ofNat 16 loadOrigin

/-- The state with an instruction's word placed where the next step fetches: both bytes written, the schedule empty so that
the next step is a tick, and a PC that no word can be fetched from moved to the load origin (log entries 17, 32). -/
def placeWord (s : State) (w : Word) : State :=
  (((s.setPc (fetchablePc s)).setSchedule []).writeBytes (fetchablePc s).toNat [highByte w, lowByte w])

end Sys2Proof.Machine
end

