-- ==== Sys2Proof/Machine/Step.lean ====
section
/-! DEFINITION. The step of the machine. -/

namespace Sys2Proof.Machine

/-- One step: the next transaction of the host, a `tick` where the schedule lists none (R44, R95; log entry 6). -/
def step (s : State) : Host.Outcome State Fault Refusal := runNext s

/-- The state with the instruction of `nbits` bits whose bits are `w` placed where the next step fetches it. -/
def State.withFetchWord (s : State) (nbits w : Nat) : State := placeWord s (BitVec.ofNat 16 (w % 2 ^ nbits))

end Sys2Proof.Machine
end

