-- ==== Sys2Proof/Safety.lean ====
section
/-! DEFINITION. The terms claims are stated in: what a state keeps of another (frames), what each instruction may write, its
one check (R234), the invariants, and safe runs. -/

namespace Sys2Proof.Machine

/-! ### Frames -/

/-- The parts of the state beside the general registers and memory. -/
inductive Part where
  | index
  | counter
  | callStack
  | delayTimer
  | soundTimer
  | keypad
  | display
  | parameters
  | drawCount
  | hostSchedule
  deriving DecidableEq, Repr

/-- The part is the same in both states. -/
def Part.kept : Part → State → State → Prop
  | .index, s, t => t.i = s.i
  | .counter, s, t => t.pc = s.pc
  | .callStack, s, t => t.sp = s.sp ∧ t.stack = s.stack
  | .delayTimer, s, t => t.dt = s.dt
  | .soundTimer, s, t => t.st = s.st
  | .keypad, s, t => t.key = s.key
  | .display, s, t => t.fb = s.fb
  | .parameters, s, t => t.cfg = s.cfg
  | .drawCount, s, t => t.draws = s.draws
  | .hostSchedule, s, t => t.schedule = s.schedule

/-- Every part but the ones listed is the same in both states. -/
def keepsParts (changed : List Part) (s t : State) : Prop := ∀ p, p ∉ changed → p.kept s t

/-- Every general register but the ones listed holds the same in both states. -/
def keepsRegs (changed : List Reg) (s t : State) : Prop := ∀ r, r ∉ changed → t.getV r = s.getV r

/-- Every byte of memory reads the same in both states. -/
def keepsMemory (s t : State) : Prop := ∀ a, t.byteAt a = s.byteAt a

/-- Every byte of memory outside the `len` addresses from `start` upward reads the same in both states. -/
def keepsMemoryOutside (start len : Nat) (s t : State) : Prop :=
  ∀ a, a < start ∨ start + len ≤ a → t.byteAt a = s.byteAt a

/-- Nothing but the registers listed differs. -/
def changesOnlyRegs (changed : List Reg) (s t : State) : Prop :=
  keepsRegs changed s t ∧ keepsParts [] s t ∧ keepsMemory s t

/-- Nothing but the parts listed differs. -/
def changesOnlyParts (changed : List Part) (s t : State) : Prop :=
  keepsRegs [] s t ∧ keepsParts changed s t ∧ keepsMemory s t

/-! ### Words -/

/-- The word `w` is an encoding of the instruction `i`: the decoder reads `i` from it. -/
def isWordOf (w : Nat) (i : Instr) : Prop := decode (BitVec.ofNat 16 w) = .ok i

/-- How many of the 4096 words with leading nibble `d1` the decoder recognizes. -/
def recognizedInGroup (d1 : Nat) : Nat :=
  (List.range 4096).countP fun k => (opcodeMap (BitVec.ofNat 16 (d1 * 4096 + k))).isSome

/-! ### What an instruction may write -/

/-- The general registers an instruction writes (R23), VF with those that write it as a flag (R24). -/
def registersWritten : Instr → List Reg
  | .ldImm x _ | .addImm x _ | .ldReg x _ | .orReg x _ | .andReg x _ | .xorReg x _ | .rnd x _ | .ldVxDt x | .ldVxK x => [x]
  | .addReg x _ | .subReg x _ | .shr x _ | .subnReg x _ | .shl x _ => [x, regF]
  | .drw _ _ _ => [regF]
  | .loadRegs x => (List.finRange 16).filter fun k => k ≤ x
  | .nop | .cls | .ret | .jp _ | .call _ | .seImm _ _ | .sneImm _ _ | .seReg _ _ | .sneReg _ _ | .ldI _ | .jpV0 _ | .skp _
  | .sknp _ | .ldDtVx _ | .ldStVx _ | .addI _ | .ldF _ | .ldB _ | .storeRegs _ => []

/-- The parts an instruction may write in its execute phase: I by R26, SP and the stack by R29, the timers by R31 and R32,
no latch by R33, the framebuffer by R34, PC by 40_control_flow.md and R211, R212, R214, the draws by R151. -/
def partsWritten : Instr → List Part
  | .ldI _ | .addI _ | .ldF _ => [.index]
  | .ret | .call _ => [.counter, .callStack]
  | .jp _ | .jpV0 _ | .seImm _ _ | .sneImm _ _ | .seReg _ _ | .sneReg _ _ | .skp _ | .sknp _ | .ldVxK _ => [.counter]
  | .ldDtVx _ => [.delayTimer]
  | .ldStVx _ => [.soundTimer]
  | .cls | .drw _ _ _ => [.display]
  | .rnd _ _ => [.drawCount]
  | .nop | .ldImm _ _ | .addImm _ _ | .ldReg _ _ | .orReg _ _ | .andReg _ _ | .xorReg _ _ | .addReg _ _ | .subReg _ _
  | .shr _ _ | .subnReg _ _ | .shl _ _ | .ldVxDt _ | .ldB _ | .storeRegs _ | .loadRegs _ => []

/-- How many bytes from I upward an instruction writes: Fx33 three, Fx55 x + 1, no other any (R60, R73). -/
def bytesWritten : Instr → Nat
  | .ldB _ => 3
  | .storeRegs x => x.val + 1
  | .nop | .cls | .ret | .jp _ | .call _ | .seImm _ _ | .sneImm _ _ | .seReg _ _ | .sneReg _ _ | .ldI _ | .jpV0 _ | .skp _
  | .sknp _ | .ldDtVx _ | .ldStVx _ | .addI _ | .ldF _ | .ldImm _ _ | .addImm _ _ | .ldReg _ _ | .orReg _ _ | .andReg _ _
  | .xorReg _ _ | .rnd _ _ | .ldVxDt _ | .ldVxK _ | .addReg _ _ | .subReg _ _ | .shr _ _ | .subnReg _ _ | .shl _ _
  | .drw _ _ _ | .loadRegs _ => 0

/-! ### Faults -/

/-- The fault of an access whose highest address is `last`, if that is above 0xFFF (R66, R230). -/
def rangeFault (site : FaultSite) (last : Nat) : Option Fault :=
  if 0xFFF < last then some (.memoryOutOfRange site last) else none

/-- The fault of a key index above 15 (R210, R230). -/
def keyFault (site : FaultSite) (value : Byte) : Option Fault :=
  if 15 < value.toNat then some (.keyIndexOutOfRange site value) else none

/-- The single check of an instruction in its execute phase, read from R230, R231 and R234: the fault it raises in this
state, if any. `address` is where the instruction stands. -/
def checkOf (i : Instr) (address : Word) (s : State) : Option Fault :=
  let site : FaultSite := { pc := address, word := encode i }
  match i with
  | .call _ => if s.sp.val = 16 then some (.stackOverflow site) else none
  | .ret => if s.sp.val = 0 then some (.stackUnderflow site) else none
  | .ldB _ => rangeFault site (s.i.toNat + 2)
  | .storeRegs x => rangeFault site (s.i.toNat + x.val)
  | .loadRegs x => rangeFault site (s.i.toNat + x.val)
  | .drw _ _ n => if n.val = 0 then none else rangeFault site (s.i.toNat + n.val - 1)
  | .skp x => keyFault site (s.getV x)
  | .sknp x => keyFault site (s.getV x)
  | .nop | .cls | .jp _ | .seImm _ _ | .sneImm _ _ | .seReg _ _ | .sneReg _ _ | .ldI _ | .jpV0 _ | .ldDtVx _ | .ldStVx _
  | .addI _ | .ldF _ | .ldImm _ _ | .addImm _ _ | .ldReg _ _ | .orReg _ _ | .andReg _ _ | .xorReg _ _ | .rnd _ _ | .ldVxDt _
  | .ldVxK _ | .addReg _ _ | .subReg _ _ | .shr _ _ | .subnReg _ _ | .shl _ _ => none

/-! ### Results and sprites -/

/-- The effect of `writeResultAndFlag(x, r, f)` (R152) as a relation: Vx ends as r and VF as f when x ≠ F; when x = F the
register ends as f if `VF_FLAG_LAST` and as r otherwise; nothing else changes. -/
def endsWithResultAndFlag (x : Reg) (r f : Byte) (s t : State) : Prop :=
  (x ≠ regF → t.getV x = r ∧ t.getV regF = f) ∧
  (x = regF → t.getV regF = if s.cfg.vfFlagLast then f else r) ∧
  changesOnlyRegs [x, regF] s t

/-- The sprite of n rows at I, drawn with its left upper corner at (x0, y0), has a 1 bit over cell (cx, cy): the cell's column
is within 8 of x0 and its row within n of y0, both counted with wrap, and the bit there, the most significant at the left, is
set (R191). -/
def spriteCovers (x0 y0 n : Nat) (s : State) (cx : Fin 64) (cy : Fin 32) : Bool :=
  let c := (cx.val + 64 - x0) % 64
  let r := (cy.val + 32 - y0) % 32
  decide (c < 8) && decide (r < n) && (s.byteAt (s.i.toNat + r)).getLsbD (7 - c)

/-! ### Invariants -/

/-- Memory is in its canonical form. -/
abbrev MemoryCanonical (s : State) : Prop := Memory.wf s.cfg.font s.mem

/-- PC is at most 0x10FE, the highest jump target (R27), and every return address on the stack is at most 0x1000, the
address after the highest instruction that can be fetched (R69, R124). -/
def CounterBounded (s : State) : Prop :=
  s.pc.toNat ≤ 0x10FE ∧ ∀ k : Fin 16, k.val < s.sp.val → (s.stack[k.val]).toNat ≤ 0x1000

/-! ### Runs and hidden state -/

/-- A run of n steps that ends in no fault and no refusal. -/
def SafeRun (n : Nat) (s : State) : Prop := ∃ t, Host.Core.run core n s = .next t

/-- Both states are the same but for the contents of stack slots at or above SP, which no program can see (R30, R36). -/
def sameButStaleSlots (s t : State) : Prop :=
  t = { s with stack := t.stack } ∧ ∀ k : Fin 16, k.val < s.sp.val → t.stack[k.val] = s.stack[k.val]

/-- Two outcomes tell the host the same and leave states related by `rel`. -/
def sameOutcome (rel : State → State → Prop) : Result → Result → Prop
  | .next s, .next t => rel s t
  | .fault f, .fault g => f = g
  | .refused q, .refused r => q = r
  | _, _ => False

end Sys2Proof.Machine
end

