-- ==== Sys2Proof/Certificates/Slice0/Obligations.lean ====
section
/-! DEFINITION. The statements for the provers, by part of the spec. In a statement about `exec`, the state's PC is the
advanced one (R28): the address of the instruction is `s.pc - 2`. -/

open Sys2Proof Sys2Proof.Machine

/-! ### Encoding and decoding (30_encoding.md) -/

/-- Words written out bit by bit from the encodings of R96, at least one of each family, decode to their instructions. The d4
of 80F4 is the spec's assignment from general knowledge (GK3, log entry 18). -/
def Obligations.WordsWrittenFromTheTableDecode : Prop :=
  isWordOf 0x0000 .nop ∧ isWordOf 0x00E0 .cls ∧ isWordOf 0x00EE .ret ∧ isWordOf 0x1ABC (.jp 0xABC) ∧
  isWordOf 0x3342 (.seImm 3 0x42) ∧ isWordOf 0x80F4 (.addReg 0 15) ∧ isWordOf 0x8FFE (.shl 15 15) ∧
  isWordOf 0xC30F (.rnd 3 0x0F) ∧ isWordOf 0xF033 (.ldB 0) ∧ isWordOf 0xDAB5 (.drw 10 11 5) ∧ isWordOf 0xE5A1 (.sknp 5) ∧
  isWordOf 0xF30A (.ldVxK 3)

/-- For every instruction, the decoder reads it back from the word and from the bytes that the encoder gives, leaving the
bytes that follow; and R97 does not list that word. -/
def Obligations.DecodeOfEncodeIsTheInstruction : Prop :=
  ∀ (i : Instr) (rest : List Byte),
    decode (encode i) = .ok i ∧ decodeBytes (encodeBytes i ++ rest) = .ok (i, rest) ∧ wordWellFormed (encode i) = true

/-- The other direction: every word that decodes is the encoding of what it decodes to, so that no two words and no bit of a
word are confused. That no word with an ignored sub-field decodes (5xy1 is not 5xy0) is the spec's decision D26 (log entry 22). -/
def Obligations.EncodeOfDecodeIsTheWord : Prop := ∀ (w : Word) (i : Instr), decode w = .ok i → encode i = w

/-- The unrecognized words are exactly those R97 lists, and a tick that fetches one raises UnrecognizedOpcode. That matching is
strict is the spec's decision D26 (log entry 22), and the payload its decision D5 (log entry 8). -/
def Obligations.UnrecognizedWordsAreExactlyThoseListed : Prop :=
  (∀ w : Word, wordUnrecognized w = true ↔ decode w = .error (.unrecognized w)) ∧
  (∀ (s : State) (w : Word), s.fetchWord s.pc.toNat = some w → wordUnrecognized w = true →
    tick s = .fault (.unrecognizedOpcode { pc := s.pc, word := w }))

/-- How many words each group recognizes, and how many all of them together do: the counts of R98, which the spec derives
from R96 and R97; that matching is strict is its decision D26 (log entry 22). -/
def Obligations.RecognizedWordsAreCounted : Prop :=
  recognizedInGroup 0x0 = 3 ∧ (∀ d ∈ [0x1, 0x2, 0x3, 0x4, 0x6, 0x7, 0xA, 0xB, 0xC, 0xD], recognizedInGroup d = 4096) ∧
  recognizedInGroup 0x5 = 256 ∧ recognizedInGroup 0x9 = 256 ∧ recognizedInGroup 0x8 = 2304 ∧ recognizedInGroup 0xE = 32 ∧
  recognizedInGroup 0xF = 144 ∧ ((List.range 16).map recognizedInGroup).sum = 43955 ∧
  ((List.range 16).map fun d => 4096 - recognizedInGroup d).sum = 21581

/-! ### The tick (30_encoding.md, 20_memory.md, 60_exceptions.md) -/

/-- A step is the next transaction of the host's schedule, and a tick where none is listed (log entry 6). -/
def Obligations.StepPerformsTheNextTransaction : Prop :=
  ∀ s : State, (∀ t ts, s.schedule = t :: ts → step s = transact t (s.setSchedule ts)) ∧
    (s.schedule = [] → step s = tick s)

/-- When the two bytes at PC decode to `i`, a step that is a tick is `exec i` in the state whose PC is advanced by 2, whatever
`i` is (R93, R95). PC may be odd, the spec's decision D6 (log entry 15); which transaction a step is, is the model's own schedule
(log entry 6). -/
def Obligations.StepRunsTheDecodedInstruction : Prop :=
  ∀ (s : State) (i : Instr), (nextTransaction s).1 = .tick → s.pc.toNat + 1 ≤ 0xFFF →
    decode (wordOfBytes (s.byteAt s.pc.toNat) (s.byteAt (s.pc.toNat + 1))) = .ok i →
    step s = exec i ((s.setSchedule (nextTransaction s).2).setPc (s.pc + 2))

/-- A tick with PC + 1 > 0xFFF raises FetchOutOfRange with that PC and changes nothing: the spec's decisions D2, D4 and, for the
payload, D5 (log entries 7, 8, 9). -/
def Obligations.FetchBeyondMemoryFaults : Prop :=
  ∀ s : State, 0xFFF < s.pc.toNat + 1 → tick s = .fault (.fetchOutOfRange s.pc) ∧ stateAfter .tick s = s

/-- A fetch joins the bytes at a and a + 1, high byte first, at any a up to 0xFFE, odd ones included, and fails above. The
failure and the odd addresses are the spec's decisions D2 and D6 (log entries 9, 15). -/
def Obligations.FetchIsBigEndian : Prop :=
  ∀ (s : State) (a : Nat),
    (a + 1 ≤ 0xFFF → ∃ w, s.fetchWord a = some w ∧ w.toNat = 256 * (s.byteAt a).toNat + (s.byteAt (a + 1)).toNat) ∧
    (0xFFF < a + 1 → s.fetchWord a = none)

/-- Which fault a tick raises: the fetch check comes first, then decode, then the instruction's one check; if none fails the
tick completes. The order and the payloads are the spec's decisions D27 and D5 (log entries 8, 22), the
fetch check its decision D2 (log entry 9), strict decoding its decision D26 (log entry 22), and the checks on addresses and key
indexes its decisions D3 and D9 (log entries 10, 11). -/
def Obligations.TickFaultsInOrder : Prop :=
  ∀ s : State,
    (0xFFF < s.pc.toNat + 1 → tick s = .fault (.fetchOutOfRange s.pc)) ∧
    (∀ w, s.fetchWord s.pc.toNat = some w →
      (∀ r, decode w = .error r → tick s = .fault (.unrecognizedOpcode { pc := s.pc, word := w })) ∧
      (∀ i f, decode w = .ok i → checkOf i s.pc s = some f → tick s = .fault f) ∧
      (∀ i, decode w = .ok i → checkOf i s.pc s = none → ∃ t, tick s = .next t))

/-- Every one of the 35 instructions completes whenever its single check passes, and raises exactly that check's fault
whenever it fails. The checks on addresses and key indexes and the payloads are the spec's decisions D3, D5 and D9 (log
entries 8, 10, 11). -/
def Obligations.InstructionCompletesUnlessItsCheckFails : Prop :=
  ∀ (i : Instr) (s : State),
    (checkOf i (s.pc - 2) s = none → ∃ t, exec i s = .next t) ∧
    (∀ f, checkOf i (s.pc - 2) s = some f → exec i s = .fault f)

/-- A transaction that faults leaves the state as it was, and a tick that faulted faults again with the same fault, also after
any `keypress` and after `tick_timers`: the spec's decisions D4 and D28 (log entry 7). -/
def Obligations.FaultLeavesStateAndRepeats : Prop :=
  (∀ (t : Transaction) (s : State) (f : Fault), transact t s = .fault f → stateAfter t s = s) ∧
  (∀ (s : State) (f : Fault), tick s = .fault f →
    tick (stateAfter .tick s) = .fault f ∧ tick (stateAfter .tickTimers s) = .fault f ∧
    ∀ index pressed, tick (stateAfter (.keypress index pressed) s) = .fault f)

/-! ### What an instruction leaves unchanged (10_state.md, 20_memory.md) -/

/-- The frame of all 35 instructions at once: when `exec` completes, only the registers, the parts and the bytes that the
spec lets the instruction write can differ; a storing instruction stores at I (R176). That Fx0A leaves the latches, Fx55 and
Fx65 leave I and Fx1E leaves VF are the spec's decisions D12, D10 and D11 (log entries 12, 13, 14); that 8xy1, 8xy2 and 8xy3
leave VF is derived by it (log entry 34). -/
def Obligations.InstructionWritesOnlyWhatTheSpecLists : Prop :=
  ∀ (i : Instr) (s t : State), exec i s = .next t →
    keepsRegs (registersWritten i) s t ∧ keepsParts (partsWritten i) s t ∧
    keepsMemoryOutside s.i.toNat (bytesWritten i) s t

/-- Only a `keypress` changes a key latch (R33), and no transaction at all changes the parameters of the instance (the model's
own field, log entry 1). That an Fx0A that completes does not clear its latch is the spec's decision D12 (C4, log entry 12). -/
def Obligations.LatchesChangeOnlyByKeypress : Prop :=
  ∀ (t : Transaction) (s s' : State), transact t s = .next s' →
    s'.cfg = s.cfg ∧ ((∀ index pressed, t ≠ .keypress index pressed) → s'.key = s.key)

/-- "No instruction reads it" (R32, of ST). Whatever ST holds, an instruction does the same, to everything else and with the same
fault; only Fx18 decides what ST holds afterwards. -/
def Obligations.NoInstructionReadsTheSoundTimer : Prop :=
  ∀ (i : Instr) (s : State) (b : Byte),
    sameOutcome
      (fun t t' => t' = t.setSt t'.st ∧ ((∀ x, i ≠ .ldStVx x) → t'.st = b) ∧ ((∃ x, i = .ldStVx x) → t'.st = t.st))
      (exec i s) (exec i (s.setSt b))

/-- Stack slots at or above SP cannot be observed (R30, R36; the spec's decision D33, log entry 33). Two states that differ only
there take the same step, with the same fault if any, to states that differ only there. -/
def Obligations.StaleStackSlotsAreUnobservable : Prop :=
  ∀ s t : State, sameButStaleSlots s t → sameOutcome sameButStaleSlots (step s) (step t)

/-! ### Control flow (40_control_flow.md) -/

/-- R121: NOP completes and changes nothing. -/
def Obligations.NopChangesNothing : Prop := isWordOf 0x0000 .nop ∧ ∀ s : State, exec .nop s = .next s

/-- The register and immediate skips complete, advance PC by 2 more exactly when their condition holds, and change nothing else
(R125 to R128). That the advance is modulo 2^16 is the spec's decision D24 (log entry 19). -/
def Obligations.SkipsAdvanceThePcOnTheirCondition : Prop :=
  ∀ (s : State) (x y : Reg) (nn : Byte),
    (isWordOf (0x3000 + 0x100 * x.val + nn.toNat) (.seImm x nn) ∧
      exec (.seImm x nn) s = .next (s.setPc (if s.getV x = nn then s.pc + 2 else s.pc))) ∧
    (isWordOf (0x4000 + 0x100 * x.val + nn.toNat) (.sneImm x nn) ∧
      exec (.sneImm x nn) s = .next (s.setPc (if s.getV x = nn then s.pc else s.pc + 2))) ∧
    (isWordOf (0x5000 + 0x100 * x.val + 0x10 * y.val) (.seReg x y) ∧
      exec (.seReg x y) s = .next (s.setPc (if s.getV x = s.getV y then s.pc + 2 else s.pc))) ∧
    (isWordOf (0x9000 + 0x100 * x.val + 0x10 * y.val) (.sneReg x y) ∧
      exec (.sneReg x y) s = .next (s.setPc (if s.getV x = s.getV y then s.pc else s.pc + 2)))

/-- JP completes, sets PC to nnn, and changes nothing else (the pseudocode of R123). -/
def Obligations.JumpSetsThePc : Prop :=
  ∀ (s : State) (nnn : BitVec 12), isWordOf (0x1000 + nnn.toNat) (.jp nnn) ∧
    ∃ t, exec (.jp nnn) s = .next t ∧ t.pc.toNat = nnn.toNat ∧ changesOnlyParts [.counter] s t

/-- JP V0 completes, sets PC to the sum of nnn and V0, and changes nothing else. That the sum is not truncated to 12 bits is
the spec's decision D24 (log entry 19). -/
def Obligations.JumpWithOffsetIsNotTruncated : Prop :=
  ∀ (s : State) (nnn : BitVec 12), isWordOf (0xB000 + nnn.toNat) (.jpV0 nnn) ∧
    ∃ t, exec (.jpV0 nnn) s = .next t ∧ t.pc.toNat = nnn.toNat + (s.getV 0).toNat ∧ changesOnlyParts [.counter] s t

/-- R124: CALL with room on the stack pushes the advanced PC, adds one to SP and jumps; every other slot and everything else
stay. With SP = 16 it raises StackOverflow. -/
def Obligations.CallPushesTheReturnAddress : Prop :=
  ∀ (s : State) (nnn : BitVec 12), isWordOf (0x2000 + nnn.toNat) (.call nnn) ∧
    (s.sp.val < 16 → ∃ t, exec (.call nnn) s = .next t ∧ t.sp.val = s.sp.val + 1 ∧ t.pc.toNat = nnn.toNat ∧
      (∀ k : Fin 16, t.stack[k.val] = if k.val = s.sp.val then s.pc else s.stack[k.val]) ∧
      changesOnlyParts [.counter, .callStack] s t) ∧
    (s.sp.val = 16 → ∃ site, exec (.call nnn) s = .fault (.stackOverflow site))

/-- RET with a return address on the stack takes one from SP and sets PC to the slot there, as it stands; every slot keeps its
value and everything else stays. With SP = 0 it raises StackUnderflow (R122). That the popped slot keeps its value is the spec's
decision D33 (log entry 33). -/
def Obligations.RetPopsTheReturnAddress : Prop :=
  isWordOf 0x00EE .ret ∧ ∀ s : State,
    (∀ k : Fin 16, s.sp.val = k.val + 1 → ∃ t, exec .ret s = .next t ∧ t.sp.val = k.val ∧ t.pc = s.stack[k.val] ∧
      t.stack = s.stack ∧ changesOnlyParts [.counter, .callStack] s t) ∧
    (s.sp.val = 0 → ∃ site, exec .ret s = .fault (.stackUnderflow site))

/-- A CALL and then, at any PC, a RET: PC is back at its value after the CALL's fetch and SP at its value before the CALL. -/
def Obligations.RetUndoesCall : Prop :=
  ∀ (s t : State) (nnn : BitVec 12) (a : Word), exec (.call nnn) s = .next t →
    ∃ u, exec .ret (t.setPc a) = .next u ∧ u.pc = s.pc ∧ u.sp = s.sp ∧ changesOnlyParts [.counter, .callStack] s u

/-! ### Register and arithmetic-logic instructions (41_register_alu.md) -/

/-- R140, R142: the loads complete, put their value in Vx and change nothing else; Vx may be VF. -/
def Obligations.LoadsWriteOnlyVx : Prop :=
  ∀ (s : State) (x y : Reg) (nn : Byte),
    (isWordOf (0x6000 + 0x100 * x.val + nn.toNat) (.ldImm x nn) ∧
      ∃ t, exec (.ldImm x nn) s = .next t ∧ t.getV x = nn ∧ changesOnlyRegs [x] s t) ∧
    (isWordOf (0x8000 + 0x100 * x.val + 0x10 * y.val) (.ldReg x y) ∧
      ∃ t, exec (.ldReg x y) s = .next t ∧ t.getV x = s.getV y ∧ changesOnlyRegs [x] s t)

/-- The bitwise operations complete, put their value in Vx and change nothing else, so that VF is not reset unless x = F (R25,
log entry 34). Their d4 is the spec's assignment from general knowledge (GK3, log entry 18). -/
def Obligations.BitwiseOperationsDoNotResetTheFlag : Prop :=
  ∀ (s : State) (x y : Reg),
    (isWordOf (0x8001 + 0x100 * x.val + 0x10 * y.val) (.orReg x y) ∧
      ∃ t, exec (.orReg x y) s = .next t ∧ t.getV x = s.getV x ||| s.getV y ∧ changesOnlyRegs [x] s t) ∧
    (isWordOf (0x8002 + 0x100 * x.val + 0x10 * y.val) (.andReg x y) ∧
      ∃ t, exec (.andReg x y) s = .next t ∧ t.getV x = s.getV x &&& s.getV y ∧ changesOnlyRegs [x] s t) ∧
    (isWordOf (0x8003 + 0x100 * x.val + 0x10 * y.val) (.xorReg x y) ∧
      ∃ t, exec (.xorReg x y) s = .next t ∧ t.getV x = s.getV x ^^^ s.getV y ∧ changesOnlyRegs [x] s t)

/-- R141: ADD Vx, nn completes with the sum modulo 256 in Vx and sets no flag. -/
def Obligations.AddImmediateWrapsWithoutFlag : Prop :=
  ∀ (s : State) (x : Reg) (nn : Byte), isWordOf (0x7000 + 0x100 * x.val + nn.toNat) (.addImm x nn) ∧
    ∃ t, exec (.addImm x nn) s = .next t ∧ (t.getV x).toNat = ((s.getV x).toNat + nn.toNat) % 256 ∧
      changesOnlyRegs [x] s t

/-- ADD Vx, Vy completes with the sum modulo 256 as its result and as its flag 1 iff the sum exceeds 255 (R146). Its d4 is
general knowledge (GK3, log entry 18); with x = F the order of the two writes is the parameter of D8 (log entry 4), and the
statement holds for both values of it. -/
def Obligations.AddSetsTheCarry : Prop :=
  ∀ (s : State) (x y : Reg), isWordOf (0x8004 + 0x100 * x.val + 0x10 * y.val) (.addReg x y) ∧
    ∃ (t : State) (r f : Byte), exec (.addReg x y) s = .next t ∧ endsWithResultAndFlag x r f s t ∧
      r.toNat = ((s.getV x).toNat + (s.getV y).toNat) % 256 ∧
      f.toNat = if 255 < (s.getV x).toNat + (s.getV y).toNat then 1 else 0

/-- The subtractions complete with the difference modulo 256 as the result and the not-borrow as the flag, which is 1 also for
equal operands (R147, R149). For 8xy7 the spec derives the test (log entry 27); the d4 are general knowledge (GK3, log entry 18);
with x = F the order of the writes is the parameter of D8 (log entry 4), and the statement holds for both values of it. -/
def Obligations.SubtractionsSetTheNotBorrow : Prop :=
  ∀ (s : State) (x y : Reg),
    (isWordOf (0x8005 + 0x100 * x.val + 0x10 * y.val) (.subReg x y) ∧
      ∃ (t : State) (r f : Byte), exec (.subReg x y) s = .next t ∧ endsWithResultAndFlag x r f s t ∧
        r.toNat = ((s.getV x).toNat + 256 - (s.getV y).toNat) % 256 ∧
        f.toNat = if (s.getV y).toNat ≤ (s.getV x).toNat then 1 else 0) ∧
    (isWordOf (0x8007 + 0x100 * x.val + 0x10 * y.val) (.subnReg x y) ∧
      ∃ (t : State) (r f : Byte), exec (.subnReg x y) s = .next t ∧ endsWithResultAndFlag x r f s t ∧
        r.toNat = ((s.getV y).toNat + 256 - (s.getV x).toNat) % 256 ∧
        f.toNat = if (s.getV x).toNat ≤ (s.getV y).toNat then 1 else 0)

/-- The shifts complete; the operand is Vx or Vy by `SHIFT_SOURCE`, the result its half rounded down or its double modulo 256,
the flag its lowest or its highest bit (R148, R150). The operand and, with x = F, the order of the writes are the parameters of
D7 and D8 (log entries 3, 4), and the statement holds for all values of them. The d4 of 8xy6 is general knowledge (GK3, log entry
18). -/
def Obligations.ShiftsMoveTheEvictedBitToTheFlag : Prop :=
  ∀ (s : State) (x y : Reg) (a : Byte), a = (if s.cfg.shiftSource = .vx then s.getV x else s.getV y) →
    (isWordOf (0x8006 + 0x100 * x.val + 0x10 * y.val) (.shr x y) ∧
      ∃ (t : State) (r f : Byte), exec (.shr x y) s = .next t ∧ endsWithResultAndFlag x r f s t ∧
        r.toNat = a.toNat / 2 ∧ f.toNat = a.toNat % 2) ∧
    (isWordOf (0x800E + 0x100 * x.val + 0x10 * y.val) (.shl x y) ∧
      ∃ (t : State) (r f : Byte), exec (.shl x y) s = .next t ∧ endsWithResultAndFlag x r f s t ∧
        r.toNat = 2 * a.toNat % 256 ∧ f.toNat = a.toNat / 128)

/-- RND completes with the drawn byte masked by nn in Vx, so that Vx has bits only where nn has, and the next draw is another
one. The drawn byte is a free value (D20, log entry 5): the statement holds whatever it is. -/
def Obligations.RndMasksTheDrawnByte : Prop :=
  ∀ (s : State) (x : Reg) (nn : Byte), isWordOf (0xC000 + 0x100 * x.val + nn.toNat) (.rnd x nn) ∧
    ∃ t, exec (.rnd x nn) s = .next t ∧ t.getV x = Config.randByte s.draws &&& nn ∧ t.getV x &&& ~~~nn = 0 ∧
      t.draws = s.draws + 1 ∧ keepsRegs [x] s t ∧ keepsParts [.drawCount] s t ∧ keepsMemory s t

/-! ### Index register and memory instructions (42_index_memory.md) -/

/-- LD I and LD F complete and set I to nnn, or to Vx times 5; nothing else changes (R170, R172). That Vx above 15 is not masked
is read by the spec from the formula, where the source says nothing (U19, N16, log entry 28). -/
def Obligations.IndexLoadsSetOnlyTheIndex : Prop :=
  ∀ (s : State) (x : Reg) (nnn : BitVec 12),
    (isWordOf (0xA000 + nnn.toNat) (.ldI nnn) ∧
      ∃ t, exec (.ldI nnn) s = .next t ∧ t.i.toNat = nnn.toNat ∧ changesOnlyParts [.index] s t) ∧
    (isWordOf (0xF029 + 0x100 * x.val) (.ldF x) ∧
      ∃ t, exec (.ldF x) s = .next t ∧ t.i.toNat = 5 * (s.getV x).toNat ∧ changesOnlyParts [.index] s t)

/-- ADD I, Vx completes with the sum modulo 2^16 in I and changes nothing else. That VF is not written is the spec's decision
D11 (log entry 14). -/
def Obligations.AddToIndexWrapsWithoutFlag : Prop :=
  ∀ (s : State) (x : Reg), isWordOf (0xF01E + 0x100 * x.val) (.addI x) ∧
    ∃ t, exec (.addI x) s = .next t ∧ t.i.toNat = (s.i.toNat + (s.getV x).toNat) % 65536 ∧ changesOnlyParts [.index] s t

/-- LD B, Vx stores the hundreds, tens and units of Vx at I, I + 1, I + 2 when all three exist, and leaves every other byte and
everything else, I included (R173); otherwise it raises MemoryOutOfRange with I + 2, and that and the payload are
the spec's decisions D3, D4 and D5 (log entries 8, 10). That stores below 0x200 and into the font take effect is its decision D19
(log entry 16). The premise is the invariant of Obligations.EveryStepKeepsMemoryCanonical. -/
def Obligations.BcdStoresThreeDigits : Prop :=
  ∀ (s : State) (x : Reg), isWordOf (0xF033 + 0x100 * x.val) (.ldB x) ∧
    (MemoryCanonical s → s.i.toNat + 2 ≤ 0xFFF → ∃ t, exec (.ldB x) s = .next t ∧
      (t.byteAt s.i.toNat).toNat = (s.getV x).toNat / 100 ∧
      (t.byteAt (s.i.toNat + 1)).toNat = (s.getV x).toNat / 10 % 10 ∧
      (t.byteAt (s.i.toNat + 2)).toNat = (s.getV x).toNat % 10 ∧
      keepsMemoryOutside s.i.toNat 3 s t ∧ keepsRegs [] s t ∧ keepsParts [] s t) ∧
    (0xFFF < s.i.toNat + 2 →
      exec (.ldB x) s = .fault (.memoryOutOfRange { pc := s.pc - 2, word := encode (.ldB x) } (s.i.toNat + 2)))

/-- LD [I], Vx stores V0..Vx at I upward when every address exists, and leaves every other byte and everything else (R174). That I
is unchanged is the spec's decision D10 (log entry 13); that stores below 0x200 and into the font take effect its decision D19
(log entry 16); that it otherwise raises MemoryOutOfRange with I + x, and the payload, its decisions D3, D4 and D5 (log entries
8, 10). The premise is the invariant of Obligations.EveryStepKeepsMemoryCanonical. -/
def Obligations.StoreRegistersFillsMemoryFromI : Prop :=
  ∀ (s : State) (x : Reg), isWordOf (0xF055 + 0x100 * x.val) (.storeRegs x) ∧
    (MemoryCanonical s → s.i.toNat + x.val ≤ 0xFFF → ∃ t, exec (.storeRegs x) s = .next t ∧
      (∀ k ≤ x, t.byteAt (s.i.toNat + k.val) = s.getV k) ∧
      keepsMemoryOutside s.i.toNat (x.val + 1) s t ∧ keepsRegs [] s t ∧ keepsParts [] s t) ∧
    (0xFFF < s.i.toNat + x.val → exec (.storeRegs x) s =
      .fault (.memoryOutOfRange { pc := s.pc - 2, word := encode (.storeRegs x) } (s.i.toNat + x.val)))

/-- LD Vx, [I] loads V0..Vx from I upward when every address exists, and leaves the registers above Vx and everything else
(R175). That I is unchanged is the spec's decision D10 (log entry 13); that it otherwise raises MemoryOutOfRange with I + x, and the
payload, its decisions D3, D4 and D5 (log entries 8, 10). -/
def Obligations.LoadRegistersReadsMemoryFromI : Prop :=
  ∀ (s : State) (x : Reg), isWordOf (0xF065 + 0x100 * x.val) (.loadRegs x) ∧
    (s.i.toNat + x.val ≤ 0xFFF → ∃ t, exec (.loadRegs x) s = .next t ∧
      (∀ k, t.getV k = if k ≤ x then s.byteAt (s.i.toNat + k.val) else s.getV k) ∧
      keepsParts [] s t ∧ keepsMemory s t) ∧
    (0xFFF < s.i.toNat + x.val → exec (.loadRegs x) s =
      .fault (.memoryOutOfRange { pc := s.pc - 2, word := encode (.loadRegs x) } (s.i.toNat + x.val)))

/-- Registers stored and then loaded back from the same I are as they were when stored, whatever the registers and the other
fields held in between. That they can be stored below 0x200 and into the font is the spec's decision D19 (log entry 16). -/
def Obligations.LoadAfterStoreRestoresRegisters : Prop :=
  ∀ (s t u : State) (x : Reg), MemoryCanonical s → exec (.storeRegs x) s = .next t →
    u.mem = t.mem → u.cfg = t.cfg → u.i = s.i →
    ∃ r, exec (.loadRegs x) u = .next r ∧ ∀ k ≤ x, r.getV k = s.getV k

/-- A fetch sees two bytes that an earlier Fx55 stored, high byte first, with nothing done in between: what the spec derives in
R78 and R267. That bytes stored below 0x200 are there to fetch, and that the address may be odd, are its decisions D19 and D6 (log
entries 15, 16). -/
def Obligations.FetchSeesStoredBytes : Prop :=
  ∀ (s t : State) (x k j : Reg), MemoryCanonical s → exec (.storeRegs x) s = .next t → j ≤ x → j.val = k.val + 1 →
    t.fetchWord (s.i.toNat + k.val) = some (wordOfBytes (s.getV k) (s.getV j))

/-! ### Display instructions (43_display.md) -/

/-- R190: CLS completes with every cell false and changes nothing else, VF included. -/
def Obligations.ClsClearsEveryCell : Prop :=
  isWordOf 0x00E0 .cls ∧ ∀ s : State, ∃ t, exec .cls s = .next t ∧ (∀ c r, t.fb.cell c r = false) ∧
    changesOnlyParts [.display] s t

/-- DRW completes when the sprite's rows exist, or when it has none: every cell under a 1 bit of the sprite is
inverted and every other cell kept, coordinates wrapping on both axes; VF is 1 if some set cell was turned off and 0
otherwise; nothing else changes (R191). That the coordinates are sampled before VF is written is the spec's decision D25 (log
entry 20), the case n = 0 is derived by the spec (log entry 21), and MemoryOutOfRange with the address of the last row, and
its payload, are its decisions D3, D4 and D5 (log entries 8, 10). -/
def Obligations.DrwInvertsTheCellsUnderTheSprite : Prop :=
  ∀ (s : State) (x y : Reg) (n : Fin 16) (x0 y0 : Nat), x0 = (s.getV x).toNat % 64 → y0 = (s.getV y).toNat % 32 →
    isWordOf (0xD000 + 0x100 * x.val + 0x10 * y.val + n.val) (.drw x y n) ∧
    ((n.val = 0 ∨ s.i.toNat + n.val - 1 ≤ 0xFFF) → ∃ t, exec (.drw x y n) s = .next t ∧
      (∀ c r, t.fb.cell c r = (s.fb.cell c r ^^ spriteCovers x0 y0 n.val s c r)) ∧
      ((∃ c r, spriteCovers x0 y0 n.val s c r = true ∧ s.fb.cell c r = true) → t.getV regF = 1) ∧
      ((¬∃ c r, spriteCovers x0 y0 n.val s c r = true ∧ s.fb.cell c r = true) → t.getV regF = 0) ∧
      keepsRegs [regF] s t ∧ keepsParts [.display] s t ∧ keepsMemory s t) ∧
    (0 < n.val → 0xFFF < s.i.toNat + n.val - 1 → exec (.drw x y n) s =
      .fault (.memoryOutOfRange { pc := s.pc - 2, word := encode (.drw x y n) } (s.i.toNat + n.val - 1)))

/-- What the spec derives in R192: drawn again with the same registers, I and sprite bytes on the framebuffer it left, a DRW
restores the framebuffer, and its VF is 1 iff the sprite has a set bit over a cell that was false at first. That with x = F or
y = F the coordinates are those VF held before the draw is the spec's decision D25 (log entry 20); that with n = 0 VF ends as 0 is
derived by it (log entry 21). -/
def Obligations.DrwTwiceRestoresTheFramebuffer : Prop :=
  ∀ (s t : State) (x y : Reg) (n : Fin 16), exec (.drw x y n) s = .next t →
    ∃ u, exec (.drw x y n) (s.setFb t.fb) = .next u ∧ u.fb = s.fb ∧
      (u.getV regF = 1 ↔ ∃ c r,
        spriteCovers ((s.getV x).toNat % 64) ((s.getV y).toNat % 32) n.val s c r = true ∧ s.fb.cell c r = false)

/-! ### Key and timer instructions (44_timers_keys.md) -/

/-- With Vx at most 15 the key skips complete, advance PC by 2 more exactly when the latch is pressed, or is not
pressed, and change nothing else, the latch included (R211, R212); with a larger Vx they raise KeyIndexOutOfRange with it, the
spec's decisions D9 and D5 (log entries 8, 11). That the advance is modulo 2^16 is its decision D24 (log entry 19). -/
def Obligations.KeySkipsTestTheLatch : Prop :=
  ∀ (s : State) (x : Reg), isWordOf (0xE09E + 0x100 * x.val) (.skp x) ∧ isWordOf (0xE0A1 + 0x100 * x.val) (.sknp x) ∧
    (∀ k : Fin 16, (s.getV x).toNat = k.val →
      exec (.skp x) s = .next (s.setPc (if s.key[k.val] = true then s.pc + 2 else s.pc)) ∧
      exec (.sknp x) s = .next (s.setPc (if s.key[k.val] = true then s.pc else s.pc + 2))) ∧
    (15 < (s.getV x).toNat →
      exec (.skp x) s = .fault (.keyIndexOutOfRange { pc := s.pc - 2, word := encode (.skp x) } (s.getV x)) ∧
      exec (.sknp x) s = .fault (.keyIndexOutOfRange { pc := s.pc - 2, word := encode (.sknp x) } (s.getV x)))

/-- LD Vx, K completes: with a key pressed, Vx takes the lowest pressed index and nothing else changes; with none, PC goes back
by 2 and nothing else changes (R214). That the wait is on the level and the latch is not cleared is the spec's decision D12 (log
entry 12), and that PC goes back modulo 2^16 its decision D24 (log entry 19). -/
def Obligations.KeyWaitTakesTheLowestPressedKey : Prop :=
  ∀ (s : State) (x : Reg), isWordOf (0xF00A + 0x100 * x.val) (.ldVxK x) ∧
    (∀ k : Fin 16, s.key[k.val] = true → (∀ j : Fin 16, j < k → s.key[j.val] = false) →
      ∃ t, exec (.ldVxK x) s = .next t ∧ (t.getV x).toNat = k.val ∧ changesOnlyRegs [x] s t) ∧
    ((∀ k : Fin 16, s.key[k.val] = false) → exec (.ldVxK x) s = .next (s.setPc (s.pc - 2)))

/-- What the spec derives in R36: a tick on an Fx0A with no key pressed leaves the whole state as it was: the wait has no state
of its own. That it waits on the level, and so needs none, is the spec's decision D12 (log entry 12). -/
def Obligations.WaitingTickChangesNothing : Prop :=
  ∀ (s : State) (w : Word) (x : Reg), s.fetchWord s.pc.toNat = some w → decode w = .ok (.ldVxK x) →
    (∀ k : Fin 16, s.key[k.val] = false) → tick s = .next s

/-- The timer instructions complete: Vx takes DT; DT takes Vx; ST takes Vx, and sound is then active iff Vx is not 0. Nothing else
changes (R213, R215, R216). That the sound output is ST ≠ 0 is the spec's decision D22 (log entry 25). -/
def Obligations.TimerInstructionsMoveTheTimers : Prop :=
  ∀ (s : State) (x : Reg),
    (isWordOf (0xF007 + 0x100 * x.val) (.ldVxDt x) ∧
      ∃ t, exec (.ldVxDt x) s = .next t ∧ t.getV x = s.dt ∧ changesOnlyRegs [x] s t) ∧
    (isWordOf (0xF015 + 0x100 * x.val) (.ldDtVx x) ∧
      ∃ t, exec (.ldDtVx x) s = .next t ∧ t.dt = s.getV x ∧ changesOnlyParts [.delayTimer] s t) ∧
    (isWordOf (0xF018 + 0x100 * x.val) (.ldStVx x) ∧
      ∃ t, exec (.ldStVx x) s = .next t ∧ t.st = s.getV x ∧ (soundActive t = true ↔ s.getV x ≠ 0) ∧
        changesOnlyParts [.soundTimer] s t)

/-! ### The host's transactions (10_state.md, 20_memory.md, 60_exceptions.md) -/

/-- `tick_timers` completes, takes one from each timer that is not 0, and changes nothing else (R241). That it counts ST too is
the spec's decision D30 (C2, log entry 26). -/
def Obligations.TickTimersCountsBothDown : Prop :=
  ∀ s : State, ∃ t, transact .tickTimers s = .next t ∧ t.dt.toNat = s.dt.toNat - 1 ∧ t.st.toNat = s.st.toNat - 1 ∧
    changesOnlyParts [.delayTimer, .soundTimer] s t

/-- Any number of `tick_timers` takes that much from each timer, never below 0. That ST is counted down too is the spec's decision
D30 (C2, log entry 26). -/
def Obligations.TimersStopAtZero : Prop :=
  ∀ (n : Nat) (s : State),
    (stateAfterAll (List.replicate n .tickTimers) s).dt.toNat = s.dt.toNat - n ∧
    (stateAfterAll (List.replicate n .tickTimers) s).st.toNat = s.st.toNat - n

/-- `keypress` with an index up to 15 completes, answers Ok, sets that latch and changes nothing else (R244); with a larger index
it completes too, answers Error(KeypressIndexOutOfRange) with the index and changes nothing, the spec's decision D16 (C7, log
entry 24), the index its decision D5 (R231, log entry 8). -/
def Obligations.KeypressSetsOneLatch : Prop :=
  ∀ (s : State) (pressed : Bool),
    (∀ index : Fin 16, respond (.keypress index.val pressed) s = .ok ∧ ∃ t,
      transact (.keypress index.val pressed) s = .next t ∧
      (∀ k : Fin 16, t.key[k.val] = if k = index then pressed else s.key[k.val]) ∧ changesOnlyParts [.keypad] s t) ∧
    (∀ index : Nat, 15 < index → transact (.keypress index pressed) s = .next s ∧
      respond (.keypress index pressed) s = .error (.keypressIndexOutOfRange index))

/-- What the spec derives in R268: a key pressed and released again with nothing in between leaves the state as it was, so no
instruction can see that it was pressed. -/
def Obligations.ShortKeypressIsNeverSeen : Prop :=
  ∀ (s : State) (k : Fin 16), s.key[k.val] = false →
    stateAfterAll [.keypress k.val true, .keypress k.val false] s = s

/-- `load` of at most 3584 bytes completes with byte k at 0x200 + k, and changes no other byte and nothing else; a longer ROM is
rejected whole and no state changes (R72). That exactly 3584 bytes are accepted is the spec's decision D14 (C3, log entry 23),
that the state after the rejection is the one before it its decision D4 (R236, log entry 7), and the length the fault carries its
decision D5 (R231, log entry 8). The premise is the invariant of Obligations.EveryStepKeepsMemoryCanonical. -/
def Obligations.LoadCopiesTheRom : Prop :=
  ∀ (s : State) (bytes : List Byte),
    (MemoryCanonical s → bytes.length ≤ 3584 → ∃ t, transact (.load bytes) s = .next t ∧
      (∀ (k : Nat) (h : k < bytes.length), t.byteAt (0x200 + k) = bytes[k]) ∧
      keepsMemoryOutside 0x200 bytes.length s t ∧ keepsRegs [] s t ∧ keepsParts [] s t) ∧
    (3584 < bytes.length →
      transact (.load bytes) s = .fault (.romTooLarge bytes.length) ∧ stateAfter (.load bytes) s = s)

/-- The reads complete, change no state, and answer the 2048 cells with cell (x, y) at y*64 + x, and ST ≠ 0: the spec's decisions
D22 and D23 (R49, R50, log entry 25). -/
def Obligations.ReadsReportTheStateUnchanged : Prop :=
  ∀ s : State,
    (∃ cells, respond .readFramebuffer s = .framebuffer cells ∧ transact .readFramebuffer s = .next s ∧
      cells.length = 2048 ∧ ∀ (x : Fin 64) (y : Fin 32), cells[y.val * 64 + x.val]? = some (s.fb.cell x y)) ∧
    (∃ active, respond .readSoundActive s = .sound active ∧ transact .readSoundActive s = .next s ∧
      (active = true ↔ s.st ≠ 0))

/-! ### Reset and invariants (10_state.md, 20_memory.md, 70_reset_and_hazards.md) -/

/-- R20, R62: what construction leaves, for every choice of the parameters: every component of R20 at its reset value, the
font at 0x000..0x04F and 0x00 at every other address. (`cfg`, `draws` and `schedule` are the model's own, log entries 1, 5, 6,
and nothing is said of them.) -/
def Obligations.ConstructionLeavesTheResetState : Prop :=
  ∀ cfg : Config,
    (∀ r, (State.construct cfg).getV r = 0) ∧ (State.construct cfg).i = 0 ∧ (State.construct cfg).pc = 0x200 ∧
    (State.construct cfg).sp = 0 ∧ (∀ k : Fin 16, (State.construct cfg).stack[k.val] = 0) ∧
    (State.construct cfg).dt = 0 ∧ (State.construct cfg).st = 0 ∧
    (∀ k : Fin 16, (State.construct cfg).key[k.val] = false) ∧ (∀ c r, (State.construct cfg).fb.cell c r = false) ∧
    (∀ a : Fin 80, (State.construct cfg).byteAt a.val = cfg.font[a.val]) ∧
    (∀ a, 80 ≤ a → a ≤ 0xFFF → (State.construct cfg).byteAt a = 0)

/-- What the spec derives in R265 (D15, log entry 17): from the constructed state with no `load`, whatever the font, 1792 ticks
are NOPs that only advance PC from 0x200 to 0x1000, and the 1793rd raises FetchOutOfRange with 0x1000, which is its decision D2,
and the payload D5 (log entries 8, 9). -/
def Obligations.UnloadedCoreRunsNopsThenFaults : Prop :=
  ∀ cfg : Config,
    (∀ k ≤ 1792, Host.Core.run core k (State.construct cfg) =
      .next ((State.construct cfg).setPc (BitVec.ofNat 16 (0x200 + 2 * k)))) ∧
    Host.Core.run core 1793 (State.construct cfg) = .fault (.fetchOutOfRange 0x1000)

/-- After reset memory is in its canonical form and the PC and the return addresses are within their bounds. -/
def Obligations.ResetMeetsTheInvariants : Prop := MemoryCanonical State.reset ∧ CounterBounded State.reset

/-- Every step keeps the canonical form of memory, whatever transaction it performs. -/
def Obligations.EveryStepKeepsMemoryCanonical : Prop :=
  ∀ s s' : State, MemoryCanonical s → step s = .next s' → MemoryCanonical s'

/-- The canonical form is one: canonical memories that read the same at every address are equal as data. -/
def Obligations.CanonicalMemoryIsUnique : Prop :=
  ∀ (font : Vector Byte 80) (m n : Memory), Memory.wf font m → Memory.wf font n →
    (∀ a, Memory.read font m a = Memory.read font n a) → m = n

/-- PC never exceeds 0x10FE, since no jump target does, and no return address on the stack exceeds 0x1000: every step keeps both
bounds, whatever transaction it performs (R27, R124; the widths are the spec's decision D24, log entry 19). That nothing is
fetched above 0xFFE, which bounds the return addresses, is its decision D2 (log entry 9). -/
def Obligations.EveryStepKeepsTheCounterBounded : Prop :=
  ∀ s s' : State, CounterBounded s → step s = .next s' → CounterBounded s'

/-- No step of the machine is refused: every instruction has a meaning. -/
def Obligations.NoStepIsRefused : Prop := ∀ (s : State) (r : Refusal), step s ≠ .refused r

/-- A word placed with `withFetchWord` is the one the very next step runs, in a state that keeps every register, the stack,
the timers, the latches and the framebuffer (log entries 17, 32). -/
def Obligations.PlacedWordRunsNext : Prop :=
  ∀ (s : State) (w : Word) (i : Instr), MemoryCanonical s → decode w = .ok i →
    step (s.withFetchWord 16 w.toNat) = exec i (s.withFetchWord 16 w.toNat).advancePc ∧
    keepsRegs [] s (s.withFetchWord 16 w.toNat) ∧ keepsParts [.counter, .hostSchedule] s (s.withFetchWord 16 w.toNat) ∧
    keepsMemoryOutside (s.withFetchWord 16 w.toNat).pc.toNat 2 s (s.withFetchWord 16 w.toNat)

/-- A jump to its own address is a loop that leaves the whole state as it was at every tick (R123, D32). The address may be odd, the
spec's decision D6 (log entry 15). -/
def Obligations.SelfJumpNeverLeaves : Prop :=
  ∀ (s : State) (nnn : BitVec 12) (n : Nat), s.pc.toNat = nnn.toNat → s.schedule = [] →
    s.fetchWord nnn.toNat = some (encode (.jp nnn)) → Host.Core.run core n s = .next s
end

