-- ==== Sys2Proof/Laws/Decode.lean ====
section
/-! SUPPORT. Small lemmas about words: their bytes and the unsigned values of the encoder's layouts. -/

namespace Sys2Proof

/-- The unsigned value of a word made of two bytes (R70). -/
theorem wordOfBytes_toNat (high low : Byte) : (wordOfBytes high low).toNat = 256 * high.toNat + low.toNat := by
  have hh := high.isLt
  have hl := low.isLt
  unfold wordOfBytes
  rw [BitVec.toNat_or]
  simp only [BitVec.toNat_shiftLeft, BitVec.truncate_eq_setWidth, BitVec.toNat_setWidth, Nat.shiftLeft_eq]
  rw [Nat.mod_eq_of_lt (show high.toNat < 2 ^ 16 by omega), Nat.mod_eq_of_lt (show low.toNat < 2 ^ 16 by omega),
    Nat.mod_eq_of_lt (by omega), Nat.mul_comm, ← Nat.two_pow_add_eq_or_of_lt (by omega)]

/-- A word is made of its own two bytes. -/
theorem wordOfBytes_highByte_lowByte (w : Word) : wordOfBytes (highByte w) (lowByte w) = w := by
  have hw := w.isLt
  apply BitVec.eq_of_toNat_eq
  rw [wordOfBytes_toNat]
  simp only [highByte, lowByte, BitVec.toNat_ofNat]
  omega

theorem wordNNN_toNat (d1 : Nat) (nnn : BitVec 12) (h : d1 < 16) : (wordNNN d1 nnn).toNat = d1 * 0x1000 + nnn.toNat := by
  have := nnn.isLt
  simp only [wordNNN, BitVec.toNat_ofNat]
  omega

theorem wordXNN_toNat (d1 : Nat) (x : Reg) (nn : Byte) (h : d1 < 16) :
    (wordXNN d1 x nn).toNat = d1 * 0x1000 + x.val * 0x100 + nn.toNat := by
  have := nn.isLt
  have := x.isLt
  simp only [wordXNN, BitVec.toNat_ofNat]
  omega

theorem wordXYN_toNat (d1 : Nat) (x y : Reg) (d4 : Nat) (h : d1 < 16) (h4 : d4 < 16) :
    (wordXYN d1 x y d4).toNat = d1 * 0x1000 + x.val * 0x100 + y.val * 0x10 + d4 := by
  have := x.isLt
  have := y.isLt
  simp only [wordXYN, BitVec.toNat_ofNat]
  omega

theorem wordX_toNat (d1 : Nat) (x : Reg) (low : Nat) (h : d1 < 16) (hl : low < 256) :
    (wordX d1 x low).toNat = d1 * 0x1000 + x.val * 0x100 + low := by
  have := x.isLt
  simp only [wordX, BitVec.toNat_ofNat]
  omega

end Sys2Proof
end

