-- ==== Sys2Proof/Laws/State.lean ====
section
/-! SUPPORT. Every field of the state after every setter (one lemma each), and the accessors after every setter. -/

namespace Sys2Proof.Machine

/-! ### `setV` -/

@[simp] theorem State.v_setV (s : State) (x : Reg) (b : Byte) : (s.setV x b).v = s.v.set x.val b := rfl
@[simp] theorem State.i_setV (s : State) (x : Reg) (b : Byte) : (s.setV x b).i = s.i := rfl
@[simp] theorem State.pc_setV (s : State) (x : Reg) (b : Byte) : (s.setV x b).pc = s.pc := rfl
@[simp] theorem State.sp_setV (s : State) (x : Reg) (b : Byte) : (s.setV x b).sp = s.sp := rfl
@[simp] theorem State.stack_setV (s : State) (x : Reg) (b : Byte) : (s.setV x b).stack = s.stack := rfl
@[simp] theorem State.dt_setV (s : State) (x : Reg) (b : Byte) : (s.setV x b).dt = s.dt := rfl
@[simp] theorem State.st_setV (s : State) (x : Reg) (b : Byte) : (s.setV x b).st = s.st := rfl
@[simp] theorem State.key_setV (s : State) (x : Reg) (b : Byte) : (s.setV x b).key = s.key := rfl
@[simp] theorem State.fb_setV (s : State) (x : Reg) (b : Byte) : (s.setV x b).fb = s.fb := rfl
@[simp] theorem State.mem_setV (s : State) (x : Reg) (b : Byte) : (s.setV x b).mem = s.mem := rfl
@[simp] theorem State.cfg_setV (s : State) (x : Reg) (b : Byte) : (s.setV x b).cfg = s.cfg := rfl
@[simp] theorem State.draws_setV (s : State) (x : Reg) (b : Byte) : (s.setV x b).draws = s.draws := rfl
@[simp] theorem State.schedule_setV (s : State) (x : Reg) (b : Byte) : (s.setV x b).schedule = s.schedule := rfl
@[simp] theorem State.getKey_setV (s : State) (x : Reg) (b : Byte) (j : Fin 16) : (s.setV x b).getKey j = s.getKey j := rfl
@[simp] theorem State.byteAt_setV (s : State) (x : Reg) (b : Byte) (c : Nat) : (s.setV x b).byteAt c = s.byteAt c := rfl
@[simp] theorem State.fetchWord_setV (s : State) (x : Reg) (b : Byte) (c : Nat) : (s.setV x b).fetchWord c = s.fetchWord c := rfl

/-! ### `setI` -/

@[simp] theorem State.v_setI (s : State) (a : Word) : (s.setI a).v = s.v := rfl
@[simp] theorem State.i_setI (s : State) (a : Word) : (s.setI a).i = a := rfl
@[simp] theorem State.pc_setI (s : State) (a : Word) : (s.setI a).pc = s.pc := rfl
@[simp] theorem State.sp_setI (s : State) (a : Word) : (s.setI a).sp = s.sp := rfl
@[simp] theorem State.stack_setI (s : State) (a : Word) : (s.setI a).stack = s.stack := rfl
@[simp] theorem State.dt_setI (s : State) (a : Word) : (s.setI a).dt = s.dt := rfl
@[simp] theorem State.st_setI (s : State) (a : Word) : (s.setI a).st = s.st := rfl
@[simp] theorem State.key_setI (s : State) (a : Word) : (s.setI a).key = s.key := rfl
@[simp] theorem State.fb_setI (s : State) (a : Word) : (s.setI a).fb = s.fb := rfl
@[simp] theorem State.mem_setI (s : State) (a : Word) : (s.setI a).mem = s.mem := rfl
@[simp] theorem State.cfg_setI (s : State) (a : Word) : (s.setI a).cfg = s.cfg := rfl
@[simp] theorem State.draws_setI (s : State) (a : Word) : (s.setI a).draws = s.draws := rfl
@[simp] theorem State.schedule_setI (s : State) (a : Word) : (s.setI a).schedule = s.schedule := rfl
@[simp] theorem State.getV_setI (s : State) (a : Word) (r : Reg) : (s.setI a).getV r = s.getV r := rfl
@[simp] theorem State.getKey_setI (s : State) (a : Word) (j : Fin 16) : (s.setI a).getKey j = s.getKey j := rfl
@[simp] theorem State.byteAt_setI (s : State) (a : Word) (c : Nat) : (s.setI a).byteAt c = s.byteAt c := rfl
@[simp] theorem State.fetchWord_setI (s : State) (a : Word) (c : Nat) : (s.setI a).fetchWord c = s.fetchWord c := rfl

/-! ### `setPc` -/

@[simp] theorem State.v_setPc (s : State) (a : Word) : (s.setPc a).v = s.v := rfl
@[simp] theorem State.i_setPc (s : State) (a : Word) : (s.setPc a).i = s.i := rfl
@[simp] theorem State.pc_setPc (s : State) (a : Word) : (s.setPc a).pc = a := rfl
@[simp] theorem State.sp_setPc (s : State) (a : Word) : (s.setPc a).sp = s.sp := rfl
@[simp] theorem State.stack_setPc (s : State) (a : Word) : (s.setPc a).stack = s.stack := rfl
@[simp] theorem State.dt_setPc (s : State) (a : Word) : (s.setPc a).dt = s.dt := rfl
@[simp] theorem State.st_setPc (s : State) (a : Word) : (s.setPc a).st = s.st := rfl
@[simp] theorem State.key_setPc (s : State) (a : Word) : (s.setPc a).key = s.key := rfl
@[simp] theorem State.fb_setPc (s : State) (a : Word) : (s.setPc a).fb = s.fb := rfl
@[simp] theorem State.mem_setPc (s : State) (a : Word) : (s.setPc a).mem = s.mem := rfl
@[simp] theorem State.cfg_setPc (s : State) (a : Word) : (s.setPc a).cfg = s.cfg := rfl
@[simp] theorem State.draws_setPc (s : State) (a : Word) : (s.setPc a).draws = s.draws := rfl
@[simp] theorem State.schedule_setPc (s : State) (a : Word) : (s.setPc a).schedule = s.schedule := rfl
@[simp] theorem State.getV_setPc (s : State) (a : Word) (r : Reg) : (s.setPc a).getV r = s.getV r := rfl
@[simp] theorem State.getKey_setPc (s : State) (a : Word) (j : Fin 16) : (s.setPc a).getKey j = s.getKey j := rfl
@[simp] theorem State.byteAt_setPc (s : State) (a : Word) (c : Nat) : (s.setPc a).byteAt c = s.byteAt c := rfl
@[simp] theorem State.fetchWord_setPc (s : State) (a : Word) (c : Nat) : (s.setPc a).fetchWord c = s.fetchWord c := rfl

/-! ### `setDt` -/

@[simp] theorem State.v_setDt (s : State) (b : Byte) : (s.setDt b).v = s.v := rfl
@[simp] theorem State.i_setDt (s : State) (b : Byte) : (s.setDt b).i = s.i := rfl
@[simp] theorem State.pc_setDt (s : State) (b : Byte) : (s.setDt b).pc = s.pc := rfl
@[simp] theorem State.sp_setDt (s : State) (b : Byte) : (s.setDt b).sp = s.sp := rfl
@[simp] theorem State.stack_setDt (s : State) (b : Byte) : (s.setDt b).stack = s.stack := rfl
@[simp] theorem State.dt_setDt (s : State) (b : Byte) : (s.setDt b).dt = b := rfl
@[simp] theorem State.st_setDt (s : State) (b : Byte) : (s.setDt b).st = s.st := rfl
@[simp] theorem State.key_setDt (s : State) (b : Byte) : (s.setDt b).key = s.key := rfl
@[simp] theorem State.fb_setDt (s : State) (b : Byte) : (s.setDt b).fb = s.fb := rfl
@[simp] theorem State.mem_setDt (s : State) (b : Byte) : (s.setDt b).mem = s.mem := rfl
@[simp] theorem State.cfg_setDt (s : State) (b : Byte) : (s.setDt b).cfg = s.cfg := rfl
@[simp] theorem State.draws_setDt (s : State) (b : Byte) : (s.setDt b).draws = s.draws := rfl
@[simp] theorem State.schedule_setDt (s : State) (b : Byte) : (s.setDt b).schedule = s.schedule := rfl
@[simp] theorem State.getV_setDt (s : State) (b : Byte) (r : Reg) : (s.setDt b).getV r = s.getV r := rfl
@[simp] theorem State.getKey_setDt (s : State) (b : Byte) (j : Fin 16) : (s.setDt b).getKey j = s.getKey j := rfl
@[simp] theorem State.byteAt_setDt (s : State) (b : Byte) (c : Nat) : (s.setDt b).byteAt c = s.byteAt c := rfl
@[simp] theorem State.fetchWord_setDt (s : State) (b : Byte) (c : Nat) : (s.setDt b).fetchWord c = s.fetchWord c := rfl

/-! ### `setSt` -/

@[simp] theorem State.v_setSt (s : State) (b : Byte) : (s.setSt b).v = s.v := rfl
@[simp] theorem State.i_setSt (s : State) (b : Byte) : (s.setSt b).i = s.i := rfl
@[simp] theorem State.pc_setSt (s : State) (b : Byte) : (s.setSt b).pc = s.pc := rfl
@[simp] theorem State.sp_setSt (s : State) (b : Byte) : (s.setSt b).sp = s.sp := rfl
@[simp] theorem State.stack_setSt (s : State) (b : Byte) : (s.setSt b).stack = s.stack := rfl
@[simp] theorem State.dt_setSt (s : State) (b : Byte) : (s.setSt b).dt = s.dt := rfl
@[simp] theorem State.st_setSt (s : State) (b : Byte) : (s.setSt b).st = b := rfl
@[simp] theorem State.key_setSt (s : State) (b : Byte) : (s.setSt b).key = s.key := rfl
@[simp] theorem State.fb_setSt (s : State) (b : Byte) : (s.setSt b).fb = s.fb := rfl
@[simp] theorem State.mem_setSt (s : State) (b : Byte) : (s.setSt b).mem = s.mem := rfl
@[simp] theorem State.cfg_setSt (s : State) (b : Byte) : (s.setSt b).cfg = s.cfg := rfl
@[simp] theorem State.draws_setSt (s : State) (b : Byte) : (s.setSt b).draws = s.draws := rfl
@[simp] theorem State.schedule_setSt (s : State) (b : Byte) : (s.setSt b).schedule = s.schedule := rfl
@[simp] theorem State.getV_setSt (s : State) (b : Byte) (r : Reg) : (s.setSt b).getV r = s.getV r := rfl
@[simp] theorem State.getKey_setSt (s : State) (b : Byte) (j : Fin 16) : (s.setSt b).getKey j = s.getKey j := rfl
@[simp] theorem State.byteAt_setSt (s : State) (b : Byte) (c : Nat) : (s.setSt b).byteAt c = s.byteAt c := rfl
@[simp] theorem State.fetchWord_setSt (s : State) (b : Byte) (c : Nat) : (s.setSt b).fetchWord c = s.fetchWord c := rfl

/-! ### `setKey` -/

@[simp] theorem State.v_setKey (s : State) (k : Fin 16) (p : Bool) : (s.setKey k p).v = s.v := rfl
@[simp] theorem State.i_setKey (s : State) (k : Fin 16) (p : Bool) : (s.setKey k p).i = s.i := rfl
@[simp] theorem State.pc_setKey (s : State) (k : Fin 16) (p : Bool) : (s.setKey k p).pc = s.pc := rfl
@[simp] theorem State.sp_setKey (s : State) (k : Fin 16) (p : Bool) : (s.setKey k p).sp = s.sp := rfl
@[simp] theorem State.stack_setKey (s : State) (k : Fin 16) (p : Bool) : (s.setKey k p).stack = s.stack := rfl
@[simp] theorem State.dt_setKey (s : State) (k : Fin 16) (p : Bool) : (s.setKey k p).dt = s.dt := rfl
@[simp] theorem State.st_setKey (s : State) (k : Fin 16) (p : Bool) : (s.setKey k p).st = s.st := rfl
@[simp] theorem State.key_setKey (s : State) (k : Fin 16) (p : Bool) : (s.setKey k p).key = s.key.set k.val p := rfl
@[simp] theorem State.fb_setKey (s : State) (k : Fin 16) (p : Bool) : (s.setKey k p).fb = s.fb := rfl
@[simp] theorem State.mem_setKey (s : State) (k : Fin 16) (p : Bool) : (s.setKey k p).mem = s.mem := rfl
@[simp] theorem State.cfg_setKey (s : State) (k : Fin 16) (p : Bool) : (s.setKey k p).cfg = s.cfg := rfl
@[simp] theorem State.draws_setKey (s : State) (k : Fin 16) (p : Bool) : (s.setKey k p).draws = s.draws := rfl
@[simp] theorem State.schedule_setKey (s : State) (k : Fin 16) (p : Bool) : (s.setKey k p).schedule = s.schedule := rfl
@[simp] theorem State.getV_setKey (s : State) (k : Fin 16) (p : Bool) (r : Reg) : (s.setKey k p).getV r = s.getV r := rfl
@[simp] theorem State.byteAt_setKey (s : State) (k : Fin 16) (p : Bool) (c : Nat) : (s.setKey k p).byteAt c = s.byteAt c := rfl
@[simp] theorem State.fetchWord_setKey (s : State) (k : Fin 16) (p : Bool) (c : Nat) : (s.setKey k p).fetchWord c = s.fetchWord c := rfl

/-! ### `setFb` -/

@[simp] theorem State.v_setFb (s : State) (f : Framebuffer) : (s.setFb f).v = s.v := rfl
@[simp] theorem State.i_setFb (s : State) (f : Framebuffer) : (s.setFb f).i = s.i := rfl
@[simp] theorem State.pc_setFb (s : State) (f : Framebuffer) : (s.setFb f).pc = s.pc := rfl
@[simp] theorem State.sp_setFb (s : State) (f : Framebuffer) : (s.setFb f).sp = s.sp := rfl
@[simp] theorem State.stack_setFb (s : State) (f : Framebuffer) : (s.setFb f).stack = s.stack := rfl
@[simp] theorem State.dt_setFb (s : State) (f : Framebuffer) : (s.setFb f).dt = s.dt := rfl
@[simp] theorem State.st_setFb (s : State) (f : Framebuffer) : (s.setFb f).st = s.st := rfl
@[simp] theorem State.key_setFb (s : State) (f : Framebuffer) : (s.setFb f).key = s.key := rfl
@[simp] theorem State.fb_setFb (s : State) (f : Framebuffer) : (s.setFb f).fb = f := rfl
@[simp] theorem State.mem_setFb (s : State) (f : Framebuffer) : (s.setFb f).mem = s.mem := rfl
@[simp] theorem State.cfg_setFb (s : State) (f : Framebuffer) : (s.setFb f).cfg = s.cfg := rfl
@[simp] theorem State.draws_setFb (s : State) (f : Framebuffer) : (s.setFb f).draws = s.draws := rfl
@[simp] theorem State.schedule_setFb (s : State) (f : Framebuffer) : (s.setFb f).schedule = s.schedule := rfl
@[simp] theorem State.getV_setFb (s : State) (f : Framebuffer) (r : Reg) : (s.setFb f).getV r = s.getV r := rfl
@[simp] theorem State.getKey_setFb (s : State) (f : Framebuffer) (j : Fin 16) : (s.setFb f).getKey j = s.getKey j := rfl
@[simp] theorem State.byteAt_setFb (s : State) (f : Framebuffer) (c : Nat) : (s.setFb f).byteAt c = s.byteAt c := rfl
@[simp] theorem State.fetchWord_setFb (s : State) (f : Framebuffer) (c : Nat) : (s.setFb f).fetchWord c = s.fetchWord c := rfl

/-! ### `setMem` -/

@[simp] theorem State.v_setMem (s : State) (m : Memory) : (s.setMem m).v = s.v := rfl
@[simp] theorem State.i_setMem (s : State) (m : Memory) : (s.setMem m).i = s.i := rfl
@[simp] theorem State.pc_setMem (s : State) (m : Memory) : (s.setMem m).pc = s.pc := rfl
@[simp] theorem State.sp_setMem (s : State) (m : Memory) : (s.setMem m).sp = s.sp := rfl
@[simp] theorem State.stack_setMem (s : State) (m : Memory) : (s.setMem m).stack = s.stack := rfl
@[simp] theorem State.dt_setMem (s : State) (m : Memory) : (s.setMem m).dt = s.dt := rfl
@[simp] theorem State.st_setMem (s : State) (m : Memory) : (s.setMem m).st = s.st := rfl
@[simp] theorem State.key_setMem (s : State) (m : Memory) : (s.setMem m).key = s.key := rfl
@[simp] theorem State.fb_setMem (s : State) (m : Memory) : (s.setMem m).fb = s.fb := rfl
@[simp] theorem State.mem_setMem (s : State) (m : Memory) : (s.setMem m).mem = m := rfl
@[simp] theorem State.cfg_setMem (s : State) (m : Memory) : (s.setMem m).cfg = s.cfg := rfl
@[simp] theorem State.draws_setMem (s : State) (m : Memory) : (s.setMem m).draws = s.draws := rfl
@[simp] theorem State.schedule_setMem (s : State) (m : Memory) : (s.setMem m).schedule = s.schedule := rfl
@[simp] theorem State.getV_setMem (s : State) (m : Memory) (r : Reg) : (s.setMem m).getV r = s.getV r := rfl
@[simp] theorem State.getKey_setMem (s : State) (m : Memory) (j : Fin 16) : (s.setMem m).getKey j = s.getKey j := rfl

/-! ### `setDraws` -/

@[simp] theorem State.v_setDraws (s : State) (n : Nat) : (s.setDraws n).v = s.v := rfl
@[simp] theorem State.i_setDraws (s : State) (n : Nat) : (s.setDraws n).i = s.i := rfl
@[simp] theorem State.pc_setDraws (s : State) (n : Nat) : (s.setDraws n).pc = s.pc := rfl
@[simp] theorem State.sp_setDraws (s : State) (n : Nat) : (s.setDraws n).sp = s.sp := rfl
@[simp] theorem State.stack_setDraws (s : State) (n : Nat) : (s.setDraws n).stack = s.stack := rfl
@[simp] theorem State.dt_setDraws (s : State) (n : Nat) : (s.setDraws n).dt = s.dt := rfl
@[simp] theorem State.st_setDraws (s : State) (n : Nat) : (s.setDraws n).st = s.st := rfl
@[simp] theorem State.key_setDraws (s : State) (n : Nat) : (s.setDraws n).key = s.key := rfl
@[simp] theorem State.fb_setDraws (s : State) (n : Nat) : (s.setDraws n).fb = s.fb := rfl
@[simp] theorem State.mem_setDraws (s : State) (n : Nat) : (s.setDraws n).mem = s.mem := rfl
@[simp] theorem State.cfg_setDraws (s : State) (n : Nat) : (s.setDraws n).cfg = s.cfg := rfl
@[simp] theorem State.draws_setDraws (s : State) (n : Nat) : (s.setDraws n).draws = n := rfl
@[simp] theorem State.schedule_setDraws (s : State) (n : Nat) : (s.setDraws n).schedule = s.schedule := rfl
@[simp] theorem State.getV_setDraws (s : State) (n : Nat) (r : Reg) : (s.setDraws n).getV r = s.getV r := rfl
@[simp] theorem State.getKey_setDraws (s : State) (n : Nat) (j : Fin 16) : (s.setDraws n).getKey j = s.getKey j := rfl
@[simp] theorem State.byteAt_setDraws (s : State) (n : Nat) (c : Nat) : (s.setDraws n).byteAt c = s.byteAt c := rfl
@[simp] theorem State.fetchWord_setDraws (s : State) (n : Nat) (c : Nat) : (s.setDraws n).fetchWord c = s.fetchWord c := rfl

/-! ### `setSchedule` -/

@[simp] theorem State.v_setSchedule (s : State) (l : List Transaction) : (s.setSchedule l).v = s.v := rfl
@[simp] theorem State.i_setSchedule (s : State) (l : List Transaction) : (s.setSchedule l).i = s.i := rfl
@[simp] theorem State.pc_setSchedule (s : State) (l : List Transaction) : (s.setSchedule l).pc = s.pc := rfl
@[simp] theorem State.sp_setSchedule (s : State) (l : List Transaction) : (s.setSchedule l).sp = s.sp := rfl
@[simp] theorem State.stack_setSchedule (s : State) (l : List Transaction) : (s.setSchedule l).stack = s.stack := rfl
@[simp] theorem State.dt_setSchedule (s : State) (l : List Transaction) : (s.setSchedule l).dt = s.dt := rfl
@[simp] theorem State.st_setSchedule (s : State) (l : List Transaction) : (s.setSchedule l).st = s.st := rfl
@[simp] theorem State.key_setSchedule (s : State) (l : List Transaction) : (s.setSchedule l).key = s.key := rfl
@[simp] theorem State.fb_setSchedule (s : State) (l : List Transaction) : (s.setSchedule l).fb = s.fb := rfl
@[simp] theorem State.mem_setSchedule (s : State) (l : List Transaction) : (s.setSchedule l).mem = s.mem := rfl
@[simp] theorem State.cfg_setSchedule (s : State) (l : List Transaction) : (s.setSchedule l).cfg = s.cfg := rfl
@[simp] theorem State.draws_setSchedule (s : State) (l : List Transaction) : (s.setSchedule l).draws = s.draws := rfl
@[simp] theorem State.schedule_setSchedule (s : State) (l : List Transaction) : (s.setSchedule l).schedule = l := rfl
@[simp] theorem State.getV_setSchedule (s : State) (l : List Transaction) (r : Reg) : (s.setSchedule l).getV r = s.getV r := rfl
@[simp] theorem State.getKey_setSchedule (s : State) (l : List Transaction) (j : Fin 16) : (s.setSchedule l).getKey j = s.getKey j := rfl
@[simp] theorem State.byteAt_setSchedule (s : State) (l : List Transaction) (c : Nat) : (s.setSchedule l).byteAt c = s.byteAt c := rfl
@[simp] theorem State.fetchWord_setSchedule (s : State) (l : List Transaction) (c : Nat) : (s.setSchedule l).fetchWord c = s.fetchWord c := rfl

/-! ### `advancePc` -/

@[simp] theorem State.v_advancePc (s : State) : (s.advancePc).v = s.v := rfl
@[simp] theorem State.i_advancePc (s : State) : (s.advancePc).i = s.i := rfl
@[simp] theorem State.pc_advancePc (s : State) : (s.advancePc).pc = s.pc + 2 := rfl
@[simp] theorem State.sp_advancePc (s : State) : (s.advancePc).sp = s.sp := rfl
@[simp] theorem State.stack_advancePc (s : State) : (s.advancePc).stack = s.stack := rfl
@[simp] theorem State.dt_advancePc (s : State) : (s.advancePc).dt = s.dt := rfl
@[simp] theorem State.st_advancePc (s : State) : (s.advancePc).st = s.st := rfl
@[simp] theorem State.key_advancePc (s : State) : (s.advancePc).key = s.key := rfl
@[simp] theorem State.fb_advancePc (s : State) : (s.advancePc).fb = s.fb := rfl
@[simp] theorem State.mem_advancePc (s : State) : (s.advancePc).mem = s.mem := rfl
@[simp] theorem State.cfg_advancePc (s : State) : (s.advancePc).cfg = s.cfg := rfl
@[simp] theorem State.draws_advancePc (s : State) : (s.advancePc).draws = s.draws := rfl
@[simp] theorem State.schedule_advancePc (s : State) : (s.advancePc).schedule = s.schedule := rfl
@[simp] theorem State.getV_advancePc (s : State) (r : Reg) : (s.advancePc).getV r = s.getV r := rfl
@[simp] theorem State.getKey_advancePc (s : State) (j : Fin 16) : (s.advancePc).getKey j = s.getKey j := rfl
@[simp] theorem State.byteAt_advancePc (s : State) (c : Nat) : (s.advancePc).byteAt c = s.byteAt c := rfl
@[simp] theorem State.fetchWord_advancePc (s : State) (c : Nat) : (s.advancePc).fetchWord c = s.fetchWord c := rfl

/-! ### `rewindPc` -/

@[simp] theorem State.v_rewindPc (s : State) : (s.rewindPc).v = s.v := rfl
@[simp] theorem State.i_rewindPc (s : State) : (s.rewindPc).i = s.i := rfl
@[simp] theorem State.pc_rewindPc (s : State) : (s.rewindPc).pc = s.pc - 2 := rfl
@[simp] theorem State.sp_rewindPc (s : State) : (s.rewindPc).sp = s.sp := rfl
@[simp] theorem State.stack_rewindPc (s : State) : (s.rewindPc).stack = s.stack := rfl
@[simp] theorem State.dt_rewindPc (s : State) : (s.rewindPc).dt = s.dt := rfl
@[simp] theorem State.st_rewindPc (s : State) : (s.rewindPc).st = s.st := rfl
@[simp] theorem State.key_rewindPc (s : State) : (s.rewindPc).key = s.key := rfl
@[simp] theorem State.fb_rewindPc (s : State) : (s.rewindPc).fb = s.fb := rfl
@[simp] theorem State.mem_rewindPc (s : State) : (s.rewindPc).mem = s.mem := rfl
@[simp] theorem State.cfg_rewindPc (s : State) : (s.rewindPc).cfg = s.cfg := rfl
@[simp] theorem State.draws_rewindPc (s : State) : (s.rewindPc).draws = s.draws := rfl
@[simp] theorem State.schedule_rewindPc (s : State) : (s.rewindPc).schedule = s.schedule := rfl
@[simp] theorem State.getV_rewindPc (s : State) (r : Reg) : (s.rewindPc).getV r = s.getV r := rfl
@[simp] theorem State.getKey_rewindPc (s : State) (j : Fin 16) : (s.rewindPc).getKey j = s.getKey j := rfl
@[simp] theorem State.byteAt_rewindPc (s : State) (c : Nat) : (s.rewindPc).byteAt c = s.byteAt c := rfl
@[simp] theorem State.fetchWord_rewindPc (s : State) (c : Nat) : (s.rewindPc).fetchWord c = s.fetchWord c := rfl

/-! ### Reading what was written -/

/-- A register reads back what was written to it, and every other register what it held (R22: no aliases). -/
theorem State.getV_setV (s : State) (x r : Reg) (b : Byte) : (s.setV x b).getV r = if x = r then b else s.getV r := by
  simp [State.getV, State.setV, Vector.getElem_set, Fin.ext_iff]

@[simp] theorem State.getV_setV_same (s : State) (x : Reg) (b : Byte) : (s.setV x b).getV x = b := by
  simp [State.getV_setV]

@[simp] theorem State.getV_setV_other (s : State) (x r : Reg) (b : Byte) (h : x ≠ r) : (s.setV x b).getV r = s.getV r := by
  simp [State.getV_setV, h]

/-- A latch reads back what `keypress` wrote to it, and every other latch what it held (R243). -/
theorem State.getKey_setKey (s : State) (k j : Fin 16) (p : Bool) :
    (s.setKey k p).getKey j = if k = j then p else s.getKey j := by
  simp [State.getKey, State.setKey, Vector.getElem_set, Fin.ext_iff]

/-- A state is known by its fields. -/
theorem State.eq_of_fields {s t : State} (hv : t.v = s.v) (hi : t.i = s.i) (hpc : t.pc = s.pc) (hsp : t.sp = s.sp)
    (hstack : t.stack = s.stack) (hdt : t.dt = s.dt) (hst : t.st = s.st) (hkey : t.key = s.key) (hfb : t.fb = s.fb)
    (hmem : t.mem = s.mem) (hcfg : t.cfg = s.cfg) (hdraws : t.draws = s.draws) (hsched : t.schedule = s.schedule) :
    t = s := by
  cases s; cases t; simp_all

/-- Register files that agree at every register are equal. -/
theorem State.v_ext {s t : State} (h : ∀ r, t.getV r = s.getV r) : t.v = s.v := by
  apply Vector.ext
  intro k hk
  exact h ⟨k, hk⟩

end Sys2Proof.Machine
end

