-- ==== Sys2Proof/Laws/Memory.lean ====
section
/-! SUPPORT. The laws of memory: what a read gives after a write, and that every memory operation keeps the canonical form. -/

namespace Sys2Proof.Machine

variable (font : Vector Byte 80)

/-! ### One entry -/

theorem Memory.read_below_eq_unlisted : ∀ (m : Memory) (a : Nat), (∀ c ∈ m, a < c.1) →
    Memory.read font m a = Memory.unlisted font a
  | [], _, _ => rfl
  | (k, b) :: m, a, h => by
    have hk : a < k := h (k, b) (List.mem_cons_self ..)
    have ih := Memory.read_below_eq_unlisted m a fun c hc => h c (List.mem_cons_of_mem _ hc)
    simp [Memory.read, Nat.ne_of_gt hk, ih]

/-- What a read gives when an entry was put before a memory of higher addresses. -/
theorem Memory.read_cons (m : Memory) (a c : Nat) (b : Byte) (h : ∀ d ∈ m, a < d.1) :
    Memory.read font (Memory.cons font a b m) c = if c = a then b else Memory.read font m c := by
  unfold Memory.cons
  by_cases hca : c = a
  · subst hca
    split
    · simp [*, Memory.read_below_eq_unlisted font m c h]
    · simp [Memory.read]
  · have hac : ¬a = c := fun e => hca e.symm
    split <;> simp [Memory.read, hac]

theorem Memory.mem_cons {m : Memory} {a : Nat} {b : Byte} {c : Host.Cell} (h : c ∈ Memory.cons font a b m) :
    c = (a, b) ∧ b ≠ Memory.unlisted font a ∨ c ∈ m := by
  unfold Memory.cons at h
  split at h
  · exact .inr h
  · rcases List.mem_cons.1 h with h | h
    · exact .inl ⟨h, ‹_›⟩
    · exact .inr h

theorem Memory.cons_wf {m : Memory} {a : Nat} {b : Byte} (hm : Memory.wf font m) (ha : a ≤ maxAddr)
    (h : ∀ d ∈ m, a < d.1) : Memory.wf font (Memory.cons font a b m) := by
  refine ⟨?_, fun c hc => ?_⟩
  · unfold Memory.cons
    split
    · exact hm.1
    · exact List.pairwise_cons.2 ⟨h, hm.1⟩
  · rcases Memory.mem_cons font hc with ⟨rfl, hb⟩ | hc
    · exact ⟨ha, hb⟩
    · exact hm.2 c hc

/-! ### Writes -/

/-- The tail of a canonical memory is canonical and lies above its head. -/
theorem Memory.wf_tail {k : Nat} {b : Byte} {m : Memory} (h : Memory.wf font ((k, b) :: m)) :
    Memory.wf font m ∧ ∀ d ∈ m, k < d.1 := by
  have hp := List.pairwise_cons.1 h.1
  exact ⟨⟨hp.2, fun c hc => h.2 c (List.mem_cons_of_mem _ hc)⟩, hp.1⟩

theorem Memory.mem_write : ∀ {m : Memory} {a : Nat} {b : Byte} {c : Host.Cell}, c ∈ Memory.write font m a b →
    c.1 = a ∨ c ∈ m
  | [], a, b, c, h => by
    rcases Memory.mem_cons font h with ⟨rfl, _⟩ | h
    · exact .inl rfl
    · simp at h
  | (k, d) :: m, a, b, c, h => by
    unfold Memory.write at h
    split at h
    · rcases Memory.mem_cons font h with ⟨rfl, _⟩ | h
      · exact .inl rfl
      · exact .inr h
    · split at h
      · rcases Memory.mem_cons font h with ⟨rfl, _⟩ | h
        · exact .inl rfl
        · exact .inr (List.mem_cons_of_mem _ h)
      · rcases List.mem_cons.1 h with rfl | h
        · exact .inr (List.mem_cons_self ..)
        · exact (Memory.mem_write h).imp id (List.mem_cons_of_mem _)

/-- A write keeps the canonical form. -/
theorem Memory.write_wf : ∀ {m : Memory} {a : Nat} {b : Byte}, Memory.wf font m → a ≤ maxAddr →
    Memory.wf font (Memory.write font m a b)
  | [], a, b, h, ha => Memory.cons_wf font h ha (by simp)
  | (k, c) :: m, a, b, h, ha => by
    have ⟨hm, hk⟩ := Memory.wf_tail font h
    unfold Memory.write
    split
    · rename_i hlt
      refine Memory.cons_wf font h ha fun d hd => ?_
      rcases List.mem_cons.1 hd with rfl | hd
      · exact hlt
      · exact lt_trans hlt (hk d hd)
    · split
      · rename_i heq
        exact Memory.cons_wf font hm ha (heq ▸ hk)
      · rename_i hlt hne
        have hw := Memory.write_wf (a := a) (b := b) hm ha
        refine ⟨List.pairwise_cons.2 ⟨fun d hd => ?_, hw.1⟩, fun d hd => ?_⟩
        · rcases Memory.mem_write font hd with rfl | hd
          · simp only; omega
          · exact hk d hd
        · rcases List.mem_cons.1 hd with rfl | hd
          · exact h.2 _ (List.mem_cons_self ..)
          · exact hw.2 d hd

/-- A read after a write in a canonical memory: the byte written at its address, what stood there elsewhere. -/
theorem Memory.read_write : ∀ {m : Memory} (a : Nat) (b : Byte) (c : Nat), Memory.wf font m →
    Memory.read font (Memory.write font m a b) c = if c = a then b else Memory.read font m c
  | [], a, b, c, _ => by
    unfold Memory.write
    exact Memory.read_cons font [] a c b (by simp)
  | (k, d) :: m, a, b, c, h => by
    have ⟨hm, hk⟩ := Memory.wf_tail font h
    unfold Memory.write
    split
    · rename_i hlt
      refine Memory.read_cons font _ a c b fun e he => ?_
      rcases List.mem_cons.1 he with rfl | he
      · exact hlt
      · exact lt_trans hlt (hk e he)
    · split
      · rename_i heq
        subst heq
        rw [Memory.read_cons font m a c b hk]
        by_cases hca : c = a
        · simp [hca]
        · have hac : ¬a = c := fun e => hca e.symm
          simp [Memory.read, hca, hac]
      · rename_i hlt hne
        simp only [Memory.read]
        rw [Memory.read_write a b c hm]
        by_cases hkc : k = c
        · subst hkc
          have : ¬k = a := fun e => hne e.symm
          simp [this]
        · simp [hkc]

end Sys2Proof.Machine
end

