-- ==== Sys2Proof/Laws/Ops.lean ====
section
/-! SUPPORT. One lemma per shared operation that says what it can do: memory accesses, the stack, the range check, the flag
procedure, skips, keys and the framebuffer. -/

namespace Sys2Proof.Machine

/-! ### Memory through the state -/

/-- A write leaves every field but memory. -/
theorem State.writeByte_eq (s : State) (a : Nat) (b : Byte) : s.writeByte a b = s.setMem (s.writeByte a b).mem := by
  unfold State.writeByte
  split <;> rfl

theorem State.writeBytes_eq (s : State) (a : Nat) (bs : List Byte) :
    s.writeBytes a bs = s.setMem (s.writeBytes a bs).mem := by
  induction bs generalizing s a with
  | nil => rfl
  | cons b bs ih =>
    have h := ih (s.writeByte a b) (a + 1)
    rw [State.writeByte_eq] at h
    unfold State.writeBytes
    rw [State.writeByte_eq, h]
    rfl

@[simp] theorem State.writeByte_cfg (s : State) (a : Nat) (b : Byte) : (s.writeByte a b).cfg = s.cfg := by
  rw [State.writeByte_eq]; rfl

@[simp] theorem State.writeBytes_cfg (s : State) (a : Nat) (bs : List Byte) : (s.writeBytes a bs).cfg = s.cfg := by
  rw [State.writeBytes_eq]; rfl

@[simp] theorem State.writeBytes_pc (s : State) (a : Nat) (bs : List Byte) : (s.writeBytes a bs).pc = s.pc := by
  rw [State.writeBytes_eq]; rfl

@[simp] theorem State.writeBytes_i (s : State) (a : Nat) (bs : List Byte) : (s.writeBytes a bs).i = s.i := by
  rw [State.writeBytes_eq]; rfl

@[simp] theorem State.writeBytes_sp (s : State) (a : Nat) (bs : List Byte) : (s.writeBytes a bs).sp = s.sp := by
  rw [State.writeBytes_eq]; rfl

@[simp] theorem State.writeBytes_stack (s : State) (a : Nat) (bs : List Byte) :
    (s.writeBytes a bs).stack = s.stack := by
  rw [State.writeBytes_eq]; rfl

@[simp] theorem State.writeBytes_schedule (s : State) (a : Nat) (bs : List Byte) :
    (s.writeBytes a bs).schedule = s.schedule := by
  rw [State.writeBytes_eq]; rfl

@[simp] theorem State.getV_writeBytes (s : State) (a : Nat) (bs : List Byte) (r : Reg) :
    (s.writeBytes a bs).getV r = s.getV r := by
  rw [State.writeBytes_eq]; rfl

/-- A write keeps the canonical form of memory. -/
theorem State.writeByte_wf {s : State} (h : Memory.wf s.cfg.font s.mem) (a : Nat) (b : Byte) :
    Memory.wf s.cfg.font (s.writeByte a b).mem := by
  unfold State.writeByte
  split
  · exact Memory.write_wf _ h ‹_›
  · exact h

theorem State.writeBytes_wf {s : State} (h : Memory.wf s.cfg.font s.mem) (a : Nat) (bs : List Byte) :
    Memory.wf s.cfg.font (s.writeBytes a bs).mem := by
  induction bs generalizing s a with
  | nil => exact h
  | cons b bs ih =>
    have := State.writeByte_wf h a b
    rw [← State.writeByte_cfg s a b] at this ⊢
    exact ih this (a + 1)

/-- Reading a byte after a write of one byte (R68). -/
theorem State.byteAt_writeByte {s : State} (h : Memory.wf s.cfg.font s.mem) {a : Nat} (ha : a ≤ maxAddr) (b : Byte)
    (c : Nat) : (s.writeByte a b).byteAt c = if c = a then b else s.byteAt c := by
  simp [State.writeByte, ha, State.byteAt, Memory.read_write _ a b c h]

/-- Reading a byte after a write of several (R70): the written byte inside the run, what stood there outside it. -/
theorem State.byteAt_writeBytes {s : State} (h : Memory.wf s.cfg.font s.mem) {a : Nat} {bs : List Byte}
    (ha : a + bs.length ≤ maxAddr + 1) (c : Nat) :
    (s.writeBytes a bs).byteAt c = if hc : a ≤ c ∧ c < a + bs.length then bs[c - a] else s.byteAt c := by
  induction bs generalizing s a with
  | nil =>
    have : ¬(a ≤ c ∧ c < a + 0) := by omega
    simp [State.writeBytes]
  | cons b bs ih =>
    simp only [List.length_cons] at ha
    have hw := State.writeByte_wf h a b
    rw [← State.writeByte_cfg s a b] at hw
    unfold State.writeBytes
    rw [ih hw (by omega), State.byteAt_writeByte h (by omega)]
    by_cases hca : c = a
    · subst hca
      simp
    · by_cases hin : a + 1 ≤ c ∧ c < a + 1 + bs.length
      · have h2 : a ≤ c ∧ c < a + (bs.length + 1) := by omega
        obtain ⟨k, hk⟩ : ∃ k, c - a = k + 1 := ⟨c - a - 1, by omega⟩
        have hk' : c - (a + 1) = k := by omega
        simp [hin, h2, hk, hk']
      · have h2 : ¬(a ≤ c ∧ c < a + (b :: bs).length) := by simp only [List.length_cons]; omega
        rw [dif_neg hin, if_neg hca, dif_neg h2]

/-- Outside its run a write of several bytes leaves every byte, in any memory whatever its form. -/
theorem Memory.read_write_other (font : Vector Byte 80) : ∀ (m : Memory) (a : Nat) (b : Byte) (c : Nat), c ≠ a →
    Memory.read font (Memory.write font m a b) c = Memory.read font m c
  | [], a, b, c, h => by
    have h' : ¬a = c := fun e => h e.symm
    unfold Memory.write Memory.cons
    split <;> simp [Memory.read, h']
  | (k, d) :: m, a, b, c, h => by
    have h' : ¬a = c := fun e => h e.symm
    have ih := Memory.read_write_other font m a b c h
    unfold Memory.write Memory.cons
    split
    · split <;> simp [Memory.read, h']
    · split
      · rename_i heq
        subst heq
        split <;> simp [Memory.read, h']
      · simp [Memory.read, ih]

theorem State.byteAt_writeByte_other (s : State) (a : Nat) (b : Byte) (c : Nat) (h : c ≠ a) :
    (s.writeByte a b).byteAt c = s.byteAt c := by
  unfold State.writeByte
  split
  · simp [State.byteAt, Memory.read_write_other _ _ _ _ _ h]
  · rfl

theorem State.byteAt_writeBytes_outside (s : State) (a : Nat) (bs : List Byte) (c : Nat)
    (h : c < a ∨ a + bs.length ≤ c) : (s.writeBytes a bs).byteAt c = s.byteAt c := by
  induction bs generalizing s a with
  | nil => rfl
  | cons b bs ih =>
    simp only [List.length_cons] at h
    unfold State.writeBytes
    rw [ih _ _ (by omega), State.byteAt_writeByte_other _ _ _ _ (by omega)]

/-! ### The stack -/

/-- A push succeeds exactly when the stack is not full, and then writes one slot and SP (R30). -/
theorem State.push_of_lt {s : State} (h : s.sp.val < 16) (a : Word) :
    s.push a = some { s with stack := s.stack.set s.sp.val a, sp := ⟨s.sp.val + 1, by omega⟩ } := by
  simp [State.push, h]

theorem State.push_full {s : State} (h : s.sp.val = 16) (a : Word) : s.push a = none := by
  simp [State.push, h]

/-- A pop succeeds exactly when the stack is not empty, answers the top slot and writes only SP (R30). -/
theorem State.pop_of_pos {s : State} (h : 0 < s.sp.val) :
    s.pop = some (s.stack[s.sp.val - 1], { s with sp := ⟨s.sp.val - 1, by omega⟩ }) := by
  simp [State.pop, h]

theorem State.pop_empty {s : State} (h : s.sp.val = 0) : s.pop = none := by
  simp [State.pop, h]

/-! ### The range check -/

/-- The range check passes when the last address is valid, or when no address is accessed (R66, R191). -/
theorem checkRange_pass {ins : Instr} {s : State} {len : Nat} {done : Result}
    (h : len = 0 ∨ s.i.toNat + len - 1 ≤ maxAddr) : checkRange ins s len done = done := by
  have : ¬(0 < len ∧ maxAddr < s.i.toNat + len - 1) := by omega
  simp [checkRange, this]

/-- The range check raises MemoryOutOfRange with the highest address otherwise (R66, R231). -/
theorem checkRange_fail {ins : Instr} {s : State} {len : Nat} {done : Result} (h0 : 0 < len)
    (h : maxAddr < s.i.toNat + len - 1) :
    checkRange ins s len done = .fault (.memoryOutOfRange (faultSite ins s) (s.i.toNat + len - 1)) := by
  simp [checkRange, h0, h, raise]

/-- If an instruction that is range-checked answers a next state, its access was in range. -/
theorem checkRange_next {ins : Instr} {s t : State} {len : Nat} {done : Result} (h : checkRange ins s len done = .next t) :
    (len = 0 ∨ s.i.toNat + len - 1 ≤ maxAddr) ∧ done = .next t := by
  unfold checkRange at h
  split at h
  · simp [raise] at h
  · exact ⟨by omega, h⟩

/-! ### Flags, skips and keys -/

@[simp] theorem flagOf_true : flagOf true = 1 := rfl

@[simp] theorem flagOf_false : flagOf false = 0 := rfl

/-- The flag procedure changes nothing but the register file (R152). -/
theorem writeResultAndFlag_eq (x : Reg) (r f : Byte) (s : State) :
    writeResultAndFlag x r f s = { s with v := (writeResultAndFlag x r f s).v } := by
  unfold writeResultAndFlag
  split <;> rfl

/-- What each register holds after the flag procedure (R152). -/
theorem getV_writeResultAndFlag (x : Reg) (r f : Byte) (s : State) (k : Reg) :
    (writeResultAndFlag x r f s).getV k =
      if k = regF ∧ (s.cfg.vfFlagLast = true ∨ x ≠ regF) then f else if k = x then r else s.getV k := by
  unfold writeResultAndFlag
  split <;> rename_i hf <;> simp only [State.getV_setV, hf, eq_comm (a := regF) (b := k), eq_comm (a := x) (b := k)]
  · simp
  · by_cases hk : k = regF
    · subst hk
      by_cases hx : x = regF
      · simp [hx]
      · have hx' : ¬regF = x := fun e => hx e.symm
        simp [hx, hx']
    · simp [hk]

/-- A skip changes nothing but PC (R120). -/
theorem State.skipIf_eq (s : State) (c : Bool) : s.skipIf c = s.setPc (if c then s.pc + 2 else s.pc) := by
  cases c <;> rfl

/-- A key index is read exactly when it is at most 15 (R210). -/
theorem keyIndex_of_lt {b : Byte} (h : b.toNat < 16) : keyIndex b = some ⟨b.toNat, h⟩ := by
  simp [keyIndex, h]

theorem keyIndex_of_ge {b : Byte} (h : 16 ≤ b.toNat) : keyIndex b = none := by
  have : ¬b.toNat < 16 := by omega
  simp [keyIndex, this]

/-- The scan finds the key that is pressed and has no pressed key below it (R214). -/
theorem firstPressedKey_eq_some {s : State} {k : Fin 16} :
    firstPressedKey s = some k ↔ s.getKey k = true ∧ ∀ j < k, s.getKey j = false := by
  unfold firstPressedKey
  rw [List.find?_eq_some_iff_getElem]
  constructor
  · rintro ⟨hk, n, hn, rfl, hlow⟩
    refine ⟨by simpa using hk, fun j hj => ?_⟩
    have := hlow j.val (by simpa [Fin.lt_def] using hj)
    simpa using this
  · rintro ⟨hk, hlow⟩
    refine ⟨hk, k.val, by simp, by simp, fun j hj => ?_⟩
    have := hlow ⟨j, by omega⟩ (by simpa [Fin.lt_def] using hj)
    simpa using this

/-- The scan finds nothing exactly when no key is pressed (R214). -/
theorem firstPressedKey_eq_none {s : State} : firstPressedKey s = none ↔ ∀ k, s.getKey k = false := by
  simp [firstPressedKey]

/-! ### The framebuffer -/

/-- Inverting a cell changes that cell and no other. -/
theorem Framebuffer.cell_flip (fb : Framebuffer) (x c : Fin 64) (y r : Fin 32) :
    (fb.flip x y).cell c r = (fb.cell c r ^^ decide (c = x ∧ r = y)) := by
  unfold Framebuffer.flip Framebuffer.cell
  rw [Vector.getElem_set]
  by_cases hy : y.val = r.val
  · have hy' : r = y := Fin.ext hy.symm
    subst hy'
    simp only [if_true, Vector.getElem_set]
    by_cases hx : x.val = c.val
    · have hx' : c = x := Fin.ext hx.symm
      subst hx'
      simp
    · have hx' : ¬c = x := fun e => hx (e ▸ rfl)
      simp [hx, hx']
  · have hy' : ¬r = y := fun e => hy (e ▸ rfl)
    simp [hy, hy']

@[simp] theorem Framebuffer.cell_blank (c : Fin 64) (r : Fin 32) : Framebuffer.blank.cell c r = false := by
  simp [Framebuffer.cell, Framebuffer.blank]

/-- Framebuffers that agree in every cell are equal. -/
theorem Framebuffer.ext_cell {f g : Framebuffer} (h : ∀ c r, f.cell c r = g.cell c r) : f = g := by
  apply Vector.ext
  intro r hr
  apply Vector.ext
  intro c hc
  exact h ⟨c, hc⟩ ⟨r, hr⟩

/-! ### Registers and memory together -/

theorem length_registersThrough (x : Reg) (s : State) : (registersThrough x s).length = x.val + 1 := by
  simp [registersThrough]

theorem getElem_registersThrough (x : Reg) (s : State) (k : Nat) (h : k < (registersThrough x s).length) :
    (registersThrough x s)[k] = s.getV ⟨k, by rw [length_registersThrough] at h; omega⟩ := by
  simp [registersThrough, State.getV]

end Sys2Proof.Machine
end

