-- ==== Sys2Proof/Laws/PerInstr.lean ====
section
/-! SUPPORT. Per instruction: the encoder's word carries, in the bits that spec/opcode_table.json gives them, the fixed values
of the instruction's row and its operands. -/

namespace Sys2Proof.Laws

/-- A run of bits of an instruction word and the unsigned value it holds. -/
structure TableBits where
  hi : Nat
  lo : Nat
  value : Nat

/-- The bits of an instruction's row in spec/opcode_table.json: its fixed bits, then its operand fields. -/
def tableBits : Instr → List TableBits
  | .nop => [⟨15, 0, 0x0⟩]
  | .cls => [⟨15, 0, 0xE0⟩]
  | .ret => [⟨15, 0, 0xEE⟩]
  | .jp nnn => [⟨15, 12, 0x1⟩, ⟨11, 0, nnn.toNat⟩]
  | .call nnn => [⟨15, 12, 0x2⟩, ⟨11, 0, nnn.toNat⟩]
  | .seImm x nn => [⟨15, 12, 0x3⟩, ⟨11, 8, x.val⟩, ⟨7, 0, nn.toNat⟩]
  | .sneImm x nn => [⟨15, 12, 0x4⟩, ⟨11, 8, x.val⟩, ⟨7, 0, nn.toNat⟩]
  | .seReg x y => [⟨3, 0, 0x0⟩, ⟨15, 12, 0x5⟩, ⟨11, 8, x.val⟩, ⟨7, 4, y.val⟩]
  | .ldImm x nn => [⟨15, 12, 0x6⟩, ⟨11, 8, x.val⟩, ⟨7, 0, nn.toNat⟩]
  | .addImm x nn => [⟨15, 12, 0x7⟩, ⟨11, 8, x.val⟩, ⟨7, 0, nn.toNat⟩]
  | .ldReg x y => [⟨3, 0, 0x0⟩, ⟨15, 12, 0x8⟩, ⟨11, 8, x.val⟩, ⟨7, 4, y.val⟩]
  | .orReg x y => [⟨3, 0, 0x1⟩, ⟨15, 12, 0x8⟩, ⟨11, 8, x.val⟩, ⟨7, 4, y.val⟩]
  | .andReg x y => [⟨3, 0, 0x2⟩, ⟨15, 12, 0x8⟩, ⟨11, 8, x.val⟩, ⟨7, 4, y.val⟩]
  | .xorReg x y => [⟨3, 0, 0x3⟩, ⟨15, 12, 0x8⟩, ⟨11, 8, x.val⟩, ⟨7, 4, y.val⟩]
  | .addReg x y => [⟨3, 0, 0x4⟩, ⟨15, 12, 0x8⟩, ⟨11, 8, x.val⟩, ⟨7, 4, y.val⟩]
  | .subReg x y => [⟨3, 0, 0x5⟩, ⟨15, 12, 0x8⟩, ⟨11, 8, x.val⟩, ⟨7, 4, y.val⟩]
  | .shr x y => [⟨3, 0, 0x6⟩, ⟨15, 12, 0x8⟩, ⟨11, 8, x.val⟩, ⟨7, 4, y.val⟩]
  | .subnReg x y => [⟨3, 0, 0x7⟩, ⟨15, 12, 0x8⟩, ⟨11, 8, x.val⟩, ⟨7, 4, y.val⟩]
  | .shl x y => [⟨3, 0, 0xE⟩, ⟨15, 12, 0x8⟩, ⟨11, 8, x.val⟩, ⟨7, 4, y.val⟩]
  | .sneReg x y => [⟨3, 0, 0x0⟩, ⟨15, 12, 0x9⟩, ⟨11, 8, x.val⟩, ⟨7, 4, y.val⟩]
  | .ldI nnn => [⟨15, 12, 0xA⟩, ⟨11, 0, nnn.toNat⟩]
  | .jpV0 nnn => [⟨15, 12, 0xB⟩, ⟨11, 0, nnn.toNat⟩]
  | .rnd x nn => [⟨15, 12, 0xC⟩, ⟨11, 8, x.val⟩, ⟨7, 0, nn.toNat⟩]
  | .drw x y n => [⟨3, 0, n.val⟩, ⟨15, 12, 0xD⟩, ⟨11, 8, x.val⟩, ⟨7, 4, y.val⟩]
  | .skp x => [⟨7, 0, 0x9E⟩, ⟨15, 12, 0xE⟩, ⟨11, 8, x.val⟩]
  | .sknp x => [⟨7, 0, 0xA1⟩, ⟨15, 12, 0xE⟩, ⟨11, 8, x.val⟩]
  | .ldVxDt x => [⟨7, 0, 0x7⟩, ⟨15, 12, 0xF⟩, ⟨11, 8, x.val⟩]
  | .ldVxK x => [⟨7, 0, 0xA⟩, ⟨15, 12, 0xF⟩, ⟨11, 8, x.val⟩]
  | .ldDtVx x => [⟨7, 0, 0x15⟩, ⟨15, 12, 0xF⟩, ⟨11, 8, x.val⟩]
  | .ldStVx x => [⟨7, 0, 0x18⟩, ⟨15, 12, 0xF⟩, ⟨11, 8, x.val⟩]
  | .addI x => [⟨7, 0, 0x1E⟩, ⟨15, 12, 0xF⟩, ⟨11, 8, x.val⟩]
  | .ldF x => [⟨7, 0, 0x29⟩, ⟨15, 12, 0xF⟩, ⟨11, 8, x.val⟩]
  | .ldB x => [⟨7, 0, 0x33⟩, ⟨15, 12, 0xF⟩, ⟨11, 8, x.val⟩]
  | .storeRegs x => [⟨7, 0, 0x55⟩, ⟨15, 12, 0xF⟩, ⟨11, 8, x.val⟩]
  | .loadRegs x => [⟨7, 0, 0x65⟩, ⟨15, 12, 0xF⟩, ⟨11, 8, x.val⟩]

/-- The word the encoder gives holds every value of the row in the row's bits. -/
def EncodeFitsTable.Statement (i : Instr) : Prop := ∀ b ∈ tableBits i, bitField (encode i) b.hi b.lo = b.value

/-! ### One lemma per layout of R90 -/

theorem bits_wordNNN (d : Fin 16) (nnn : BitVec 12) :
    ∀ b ∈ [(⟨15, 12, d.val⟩ : TableBits), ⟨11, 0, nnn.toNat⟩], bitField (wordNNN d.val nnn) b.hi b.lo = b.value := by
  have hd := d.isLt
  have hn := nnn.isLt
  simp [bitField, wordNNN]
  omega

theorem bits_wordXNN (d : Fin 16) (x : Reg) (nn : Byte) :
    ∀ b ∈ [(⟨15, 12, d.val⟩ : TableBits), ⟨11, 8, x.val⟩, ⟨7, 0, nn.toNat⟩],
      bitField (wordXNN d.val x nn) b.hi b.lo = b.value := by
  have hd := d.isLt
  have hx := x.isLt
  have hn := nn.isLt
  simp [bitField, wordXNN]
  omega

theorem bits_wordXYN (d : Fin 16) (x y : Reg) (n : Fin 16) :
    ∀ b ∈ [(⟨3, 0, n.val⟩ : TableBits), ⟨15, 12, d.val⟩, ⟨11, 8, x.val⟩, ⟨7, 4, y.val⟩],
      bitField (wordXYN d.val x y n.val) b.hi b.lo = b.value := by
  have hd := d.isLt
  have hx := x.isLt
  have hy := y.isLt
  have hn := n.isLt
  simp [bitField, wordXYN]
  omega

theorem bits_wordX (d : Fin 16) (x : Reg) (low : Byte) :
    ∀ b ∈ [(⟨7, 0, low.toNat⟩ : TableBits), ⟨15, 12, d.val⟩, ⟨11, 8, x.val⟩],
      bitField (wordX d.val x low.toNat) b.hi b.lo = b.value := by
  have hd := d.isLt
  have hx := x.isLt
  have hl := low.isLt
  simp [bitField, wordX]
  omega

/-! ### One lemma per instruction -/

theorem EncodeFitsTable.nop : EncodeFitsTable.Statement .nop := by
  simp [EncodeFitsTable.Statement, tableBits, encode, bitField]

theorem EncodeFitsTable.cls : EncodeFitsTable.Statement .cls := by
  simp [EncodeFitsTable.Statement, tableBits, encode, bitField]

theorem EncodeFitsTable.ret : EncodeFitsTable.Statement .ret := by
  simp [EncodeFitsTable.Statement, tableBits, encode, bitField]

theorem EncodeFitsTable.jp (nnn : BitVec 12) : EncodeFitsTable.Statement (.jp nnn) :=
  bits_wordNNN 0x1 nnn

theorem EncodeFitsTable.call (nnn : BitVec 12) : EncodeFitsTable.Statement (.call nnn) :=
  bits_wordNNN 0x2 nnn

theorem EncodeFitsTable.seImm (x : Reg) (nn : Byte) : EncodeFitsTable.Statement (.seImm x nn) :=
  bits_wordXNN 0x3 x nn

theorem EncodeFitsTable.sneImm (x : Reg) (nn : Byte) : EncodeFitsTable.Statement (.sneImm x nn) :=
  bits_wordXNN 0x4 x nn

theorem EncodeFitsTable.seReg (x y : Reg) : EncodeFitsTable.Statement (.seReg x y) :=
  bits_wordXYN 0x5 x y 0x0

theorem EncodeFitsTable.ldImm (x : Reg) (nn : Byte) : EncodeFitsTable.Statement (.ldImm x nn) :=
  bits_wordXNN 0x6 x nn

theorem EncodeFitsTable.addImm (x : Reg) (nn : Byte) : EncodeFitsTable.Statement (.addImm x nn) :=
  bits_wordXNN 0x7 x nn

theorem EncodeFitsTable.ldReg (x y : Reg) : EncodeFitsTable.Statement (.ldReg x y) :=
  bits_wordXYN 0x8 x y 0x0

theorem EncodeFitsTable.orReg (x y : Reg) : EncodeFitsTable.Statement (.orReg x y) :=
  bits_wordXYN 0x8 x y 0x1

theorem EncodeFitsTable.andReg (x y : Reg) : EncodeFitsTable.Statement (.andReg x y) :=
  bits_wordXYN 0x8 x y 0x2

theorem EncodeFitsTable.xorReg (x y : Reg) : EncodeFitsTable.Statement (.xorReg x y) :=
  bits_wordXYN 0x8 x y 0x3

theorem EncodeFitsTable.addReg (x y : Reg) : EncodeFitsTable.Statement (.addReg x y) :=
  bits_wordXYN 0x8 x y 0x4

theorem EncodeFitsTable.subReg (x y : Reg) : EncodeFitsTable.Statement (.subReg x y) :=
  bits_wordXYN 0x8 x y 0x5

theorem EncodeFitsTable.shr (x y : Reg) : EncodeFitsTable.Statement (.shr x y) :=
  bits_wordXYN 0x8 x y 0x6

theorem EncodeFitsTable.subnReg (x y : Reg) : EncodeFitsTable.Statement (.subnReg x y) :=
  bits_wordXYN 0x8 x y 0x7

theorem EncodeFitsTable.shl (x y : Reg) : EncodeFitsTable.Statement (.shl x y) :=
  bits_wordXYN 0x8 x y 0xE

theorem EncodeFitsTable.sneReg (x y : Reg) : EncodeFitsTable.Statement (.sneReg x y) :=
  bits_wordXYN 0x9 x y 0x0

theorem EncodeFitsTable.ldI (nnn : BitVec 12) : EncodeFitsTable.Statement (.ldI nnn) :=
  bits_wordNNN 0xA nnn

theorem EncodeFitsTable.jpV0 (nnn : BitVec 12) : EncodeFitsTable.Statement (.jpV0 nnn) :=
  bits_wordNNN 0xB nnn

theorem EncodeFitsTable.rnd (x : Reg) (nn : Byte) : EncodeFitsTable.Statement (.rnd x nn) :=
  bits_wordXNN 0xC x nn

theorem EncodeFitsTable.drw (x y : Reg) (n : Fin 16) : EncodeFitsTable.Statement (.drw x y n) :=
  bits_wordXYN 0xD x y n

theorem EncodeFitsTable.skp (x : Reg) : EncodeFitsTable.Statement (.skp x) :=
  bits_wordX 0xE x 0x9E

theorem EncodeFitsTable.sknp (x : Reg) : EncodeFitsTable.Statement (.sknp x) :=
  bits_wordX 0xE x 0xA1

theorem EncodeFitsTable.ldVxDt (x : Reg) : EncodeFitsTable.Statement (.ldVxDt x) :=
  bits_wordX 0xF x 0x07

theorem EncodeFitsTable.ldVxK (x : Reg) : EncodeFitsTable.Statement (.ldVxK x) :=
  bits_wordX 0xF x 0x0A

theorem EncodeFitsTable.ldDtVx (x : Reg) : EncodeFitsTable.Statement (.ldDtVx x) :=
  bits_wordX 0xF x 0x15

theorem EncodeFitsTable.ldStVx (x : Reg) : EncodeFitsTable.Statement (.ldStVx x) :=
  bits_wordX 0xF x 0x18

theorem EncodeFitsTable.addI (x : Reg) : EncodeFitsTable.Statement (.addI x) :=
  bits_wordX 0xF x 0x1E

theorem EncodeFitsTable.ldF (x : Reg) : EncodeFitsTable.Statement (.ldF x) :=
  bits_wordX 0xF x 0x29

theorem EncodeFitsTable.ldB (x : Reg) : EncodeFitsTable.Statement (.ldB x) :=
  bits_wordX 0xF x 0x33

theorem EncodeFitsTable.storeRegs (x : Reg) : EncodeFitsTable.Statement (.storeRegs x) :=
  bits_wordX 0xF x 0x55

theorem EncodeFitsTable.loadRegs (x : Reg) : EncodeFitsTable.Statement (.loadRegs x) :=
  bits_wordX 0xF x 0x65

end Sys2Proof.Laws
end

