-- ==== Sys2Proof/Laws/Step.lean ====
section
/-! SUPPORT. What a tick and a step can do, said once: the inversion lemmas that claims about every step go through. -/

namespace Sys2Proof.Machine

/-- A tick that completes fetched a word that decodes, and is that instruction's meaning in the state with PC advanced. -/
theorem tick_next {s t : State} (h : tick s = .next t) :
    ∃ w i, s.fetchWord s.pc.toNat = some w ∧ decode w = .ok i ∧ exec i s.advancePc = .next t := by
  unfold tick at h
  split at h
  · simp [raise] at h
  · rename_i w hw
    split at h
    · rename_i i hi
      exact ⟨w, i, hw, hi, h⟩
    · simp [raise] at h

/-- A tick whose word decodes is that instruction's meaning. -/
theorem tick_of_decode {s : State} {w : Word} {i : Instr} (hw : s.fetchWord s.pc.toNat = some w) (hi : decode w = .ok i) :
    tick s = exec i s.advancePc := by
  simp [tick, hw, hi]

/-- A fetch succeeds exactly when both bytes exist (R69). -/
theorem State.fetchWord_eq_some {s : State} {a : Nat} {w : Word} :
    s.fetchWord a = some w ↔ a + 1 ≤ maxAddr ∧ wordOfBytes (s.byteAt a) (s.byteAt (a + 1)) = w := by
  unfold State.fetchWord
  split <;> simp <;> omega

/-- A ROM that fits is written from the load origin upward, and a longer one is rejected whole (R72). -/
theorem load_cases (bytes : List Byte) (s : State) :
    (bytes.length ≤ maxRom ∧ load bytes s = .next (s.writeBytes loadOrigin bytes)) ∨
      (maxRom < bytes.length ∧ load bytes s = .fault (.romTooLarge bytes.length)) := by
  by_cases h : maxRom < bytes.length
  · exact .inr ⟨h, by simp only [load, h, if_true, raise]⟩
  · exact .inl ⟨by omega, by simp only [load, h, if_false]⟩

/-- A key event sets the latch of an index in range, and changes nothing for any other index (R244). -/
theorem keypress_cases (index : Nat) (pressed : Bool) (s : State) :
    (∃ k : Fin 16, k.val = index ∧ keypress index pressed s = s.setKey k pressed) ∨
      (15 < index ∧ keypress index pressed s = s) := by
  by_cases h : index < 16
  · exact .inl ⟨⟨index, h⟩, rfl, by simp [keypress, h]⟩
  · exact .inr ⟨by omega, by simp [keypress, h]⟩

/-- A step that completes performed one transaction: a tick, a load that fits, a count of the timers, a key event in range,
or one that changes no state (a read, or a key event out of range). -/
theorem step_next {s t : State} (h : step s = .next t) :
    ∃ rest : List Transaction,
      tick (s.setSchedule rest) = .next t ∨
      (∃ bytes : List Byte, bytes.length ≤ maxRom ∧ t = (s.setSchedule rest).writeBytes loadOrigin bytes) ∨
      t = tickTimers (s.setSchedule rest) ∨ (∃ k p, t = (s.setSchedule rest).setKey k p) ∨ t = s.setSchedule rest := by
  unfold step runNext at h
  refine ⟨(nextTransaction s).2, ?_⟩
  generalize (nextTransaction s).1 = tr at h
  generalize (nextTransaction s).2 = rest at h ⊢
  cases tr with
  | load bytes =>
    rcases load_cases bytes (s.setSchedule rest) with ⟨hl, hn⟩ | ⟨-, hf⟩
    · exact .inr (.inl ⟨bytes, hl, by simpa [transact, hn] using h.symm⟩)
    · simp [transact, hf] at h
  | tick => exact .inl h
  | tickTimers => exact .inr (.inr (.inl (by simpa [transact] using h.symm)))
  | keypress index pressed =>
    obtain rfl : keypress index pressed (s.setSchedule rest) = t := by simpa [transact] using h
    rcases keypress_cases index pressed (s.setSchedule rest) with ⟨k, -, hk⟩ | ⟨-, hk⟩
    · exact .inr (.inr (.inr (.inl ⟨k, pressed, hk⟩)))
    · exact .inr (.inr (.inr (.inr hk)))
  | readFramebuffer => exact .inr (.inr (.inr (.inr (by simpa [transact] using h.symm))))
  | readSoundActive => exact .inr (.inr (.inr (.inr (by simpa [transact] using h.symm))))

end Sys2Proof.Machine
end

