-- ==== Sys2Proof/Tests/Slice0.lean ====
section
/-! SUPPORT. The model's own tests: the well-formedness checks, decoding, the vectors of spec/95_test_vectors.md (named in each
test), and for every statement with hypotheses a state that meets them. -/

namespace Sys2Proof.Tests

open Sys2Proof.Machine

/-! ### Helpers -/

/-- The reset state with the word `w` placed at the PC. -/
def ready (w : Nat) : State := State.reset.withFetchWord 16 w

/-- The reset state with its parameters replaced. -/
def readyWith (cfg : Config) (w : Nat) : State := (State.construct cfg).withFetchWord 16 w

/-- Something of the state after one step, if it completes. -/
def after {α : Type} (s : State) (f : State → α) : Option α :=
  match step s with
  | .next t => some (f t)
  | _ => none

/-- The fault of one step, if it faults. -/
def faultOf (s : State) : Option Fault :=
  match step s with
  | .fault f => some f
  | _ => none

/-- The reset state with a stack of the given depth whose slots all hold 0x0202. -/
def withDepth (s : State) (n : Fin 17) : State := { s with sp := n, stack := Vector.replicate 16 0x0202 }

/-- Parameters with the non-default shift source, and with the non-default flag order. -/
def shiftVy : Config := { Config.default with shiftSource := .vy }
def flagFirst : Config := { Config.default with vfFlagLast := false }

/-! ### WellFormed: an ill-formed word for each check of R97 -/

theorem test_wf_refuses_machine_code_call : wordWellFormed 0x0123 = false := by decide
theorem test_wf_refuses_group_zero_edges :
    [0x0001#16, 0x00DF#16, 0x00E1#16, 0x00ED#16, 0x00EF#16, 0x0FFF#16].all (fun w => !wordWellFormed w) = true := by decide
theorem test_wf_refuses_5xy1 : wordWellFormed 0x5121 = false := by decide
theorem test_wf_refuses_8xy8 : wordWellFormed 0x8008 = false := by decide
theorem test_wf_refuses_8xyF : wordWellFormed 0x800F = false := by decide
theorem test_wf_refuses_9xy1 : wordWellFormed 0x9121 = false := by decide
theorem test_wf_refuses_ExA2 : wordWellFormed 0xE0A2 = false := by decide
theorem test_wf_refuses_FxFF : wordWellFormed 0xF0FF = false := by decide
theorem test_wf_accepts_the_zero_group :
    [0x0000#16, 0x00E0#16, 0x00EE#16].all wordWellFormed = true := by decide

/-! ### Decode: a word written out from the encoding (R96, R101) for every constructor -/

theorem test_decode_control :
    decodeTableWord 16 0x0000 = some .nop ∧ decodeTableWord 16 0x00EE = some .ret ∧
    decodeTableWord 16 0x1ABC = some (.jp 0xABC) ∧ decodeTableWord 16 0x2300 = some (.call 0x300) ∧
    decodeTableWord 16 0x3342 = some (.seImm 3 0x42) ∧ decodeTableWord 16 0x4300 = some (.sneImm 3 0x00) ∧
    decodeTableWord 16 0x5120 = some (.seReg 1 2) ∧ decodeTableWord 16 0x9120 = some (.sneReg 1 2) ∧
    decodeTableWord 16 0xBA00 = some (.jpV0 0xA00) := by decide

theorem test_decode_alu :
    decodeTableWord 16 0x6012 = some (.ldImm 0 0x12) ∧ decodeTableWord 16 0x7FFE = some (.addImm 15 0xFE) ∧
    decodeTableWord 16 0x8010 = some (.ldReg 0 1) ∧ decodeTableWord 16 0x8121 = some (.orReg 1 2) ∧
    decodeTableWord 16 0x8122 = some (.andReg 1 2) ∧ decodeTableWord 16 0x8123 = some (.xorReg 1 2) ∧
    decodeTableWord 16 0x80F4 = some (.addReg 0 15) ∧ decodeTableWord 16 0x8125 = some (.subReg 1 2) ∧
    decodeTableWord 16 0x8126 = some (.shr 1 2) ∧ decodeTableWord 16 0x8127 = some (.subnReg 1 2) ∧
    decodeTableWord 16 0x8FEE = some (.shl 15 14) ∧ decodeTableWord 16 0xC30F = some (.rnd 3 0x0F) := by decide

theorem test_decode_index_memory_display :
    decodeTableWord 16 0xA2F0 = some (.ldI 0x2F0) ∧ decodeTableWord 16 0xF21E = some (.addI 2) ∧
    decodeTableWord 16 0xF429 = some (.ldF 4) ∧ decodeTableWord 16 0xF033 = some (.ldB 0) ∧
    decodeTableWord 16 0xFF55 = some (.storeRegs 15) ∧ decodeTableWord 16 0xF265 = some (.loadRegs 2) ∧
    decodeTableWord 16 0x00E0 = some .cls ∧ decodeTableWord 16 0xDAB5 = some (.drw 10 11 5) := by decide

theorem test_decode_keys_timers :
    decodeTableWord 16 0xE59E = some (.skp 5) ∧ decodeTableWord 16 0xE5A1 = some (.sknp 5) ∧
    decodeTableWord 16 0xF307 = some (.ldVxDt 3) ∧ decodeTableWord 16 0xF30A = some (.ldVxK 3) ∧
    decodeTableWord 16 0xF015 = some (.ldDtVx 0) ∧ decodeTableWord 16 0xF118 = some (.ldStVx 1) := by decide

theorem test_decode_rejects_by_name : decode 0x0123 = .error (.unrecognized 0x0123) := by rfl
theorem test_decode_rejects_short_bytes : decodeBytes [0x60] = .error .truncated := by rfl

/-! ### The tick -/

/-- TE3: the last word of memory runs and leaves PC above it. -/
theorem test_tick_at_0xFFE : after (State.reset.setPc 0xFFE) (fun t => t.pc) = some 0x1000 := by decide
/-- TE4. -/
theorem test_fetch_at_0xFFF : faultOf (State.reset.setPc 0xFFF) = some (.fetchOutOfRange 0xFFF) := by decide
/-- TE5. -/
theorem test_unrecognized : faultOf (ready 0x5121) = some (.unrecognizedOpcode ⟨0x200, 0x5121⟩) := by decide
/-- TE13: an odd PC. -/
theorem test_odd_pc :
    after ((State.reset.setPc 0x201).withFetchWord 16 0x6042) (fun t => (t.getV 0, t.pc)) = some (0x42, 0x203) := by decide
/-- The schedule's first transaction is performed and taken off. -/
theorem test_schedule_runs_first :
    after ((ready 0x6042).setSchedule [.keypress 7 true, .tick]) (fun t => (t.getKey 7, t.pc, t.schedule)) =
      some (true, 0x200, [.tick]) := by decide

/-! ### Control flow -/

/-- TC1. -/
theorem test_nop : after (ready 0x0000) (fun t => t.pc) = some 0x202 := by decide
/-- TC4. -/
theorem test_call : after (ready 0x2300) (fun t => (t.pc, t.sp, t.stack[0])) = some (0x300, 1, 0x202) := by decide
/-- TC5. -/
theorem test_call_full : faultOf (withDepth (ready 0x2300) 16) = some (.stackOverflow ⟨0x200, 0x2300⟩) := by decide
/-- TC7's shape: the top slot, as it stands. -/
theorem test_ret : after (withDepth (ready 0x00EE) 1) (fun t => (t.pc, t.sp)) = some (0x202, 0) := by decide
/-- TC6. -/
theorem test_ret_empty : faultOf (ready 0x00EE) = some (.stackUnderflow ⟨0x200, 0x00EE⟩) := by decide
/-- TC2. -/
theorem test_jp : after (ready 0x1ABC) (fun t => t.pc) = some 0xABC := by decide
/-- TC17. -/
theorem test_jpV0_past_the_end : after ((ready 0xBFFF).setV 0 0x01) (fun t => t.pc) = some 0x1000 := by decide
/-- TC8, TC9. -/
theorem test_seImm :
    after ((ready 0x3342).setV 3 0x42) (fun t => t.pc) = some 0x204 ∧
    after ((ready 0x3343).setV 3 0x42) (fun t => t.pc) = some 0x202 := by decide
/-- TC10, TC11. -/
theorem test_sneImm :
    after ((ready 0x4342).setV 3 0x42) (fun t => t.pc) = some 0x202 ∧
    after ((ready 0x4300).setV 3 0x42) (fun t => t.pc) = some 0x204 := by decide
/-- TC12. -/
theorem test_seReg : after (((ready 0x5120).setV 1 7).setV 2 7) (fun t => t.pc) = some 0x204 := by decide
/-- TC14, TC15. -/
theorem test_sneReg :
    after (((ready 0x9120).setV 1 7).setV 2 8) (fun t => t.pc) = some 0x204 ∧
    after (ready 0x9110) (fun t => t.pc) = some 0x202 := by decide

/-! ### Registers and arithmetic -/

/-- TA1. -/
theorem test_ldImm : after (ready 0x6012) (fun t => t.getV 0) = some 0x12 := by decide
/-- TA2, TA3. -/
theorem test_addImm :
    after ((ready 0x7001).setV 0 0xFF) (fun t => (t.getV 0, t.getV 15)) = some (0x00, 0x00) ∧
    after ((ready 0x7FFF).setV 15 0x01) (fun t => t.getV 15) = some 0x00 := by decide
/-- TA4. -/
theorem test_ldReg : after ((ready 0x8010).setV 1 0x07) (fun t => t.getV 0) = some 0x07 := by decide
/-- TA5: VF is not reset. -/
theorem test_orReg :
    after ((((ready 0x8011).setV 0 0xF0).setV 1 0x0F).setV 15 0x55) (fun t => (t.getV 0, t.getV 15)) =
      some (0xFF, 0x55) := by decide
/-- TA6. -/
theorem test_andReg : after (((ready 0x8012).setV 0 0xF0).setV 1 0x3C) (fun t => t.getV 0) = some 0x30 := by decide
/-- TA7. -/
theorem test_xorReg : after (((ready 0x8013).setV 0 0xF0).setV 1 0x3C) (fun t => t.getV 0) = some 0xCC := by decide
/-- S1; TA11: y = F, the old VF is the addend. -/
theorem test_addReg :
    after (((ready 0x8014).setV 0 0xC8).setV 1 0x64) (fun t => (t.getV 0, t.getV 15)) = some (0x2C, 1) ∧
    after (((ready 0x80F4).setV 0 0x01).setV 15 0xFF) (fun t => (t.getV 0, t.getV 15)) = some (0x00, 1) := by decide
/-- TA10: x = F, under both values of `VF_FLAG_LAST`. -/
theorem test_addReg_into_the_flag :
    after (((ready 0x8F14).setV 15 0xFF).setV 1 0x01) (fun t => t.getV 15) = some 0x01 ∧
    after (((readyWith flagFirst 0x8F14).setV 15 0xFF).setV 1 0x01) (fun t => t.getV 15) = some 0x00 := by decide
/-- TA12, S2 with equal operands. -/
theorem test_subReg :
    after (((ready 0x8015).setV 0 0x00).setV 1 0x01) (fun t => (t.getV 0, t.getV 15)) = some (0xFF, 0) ∧
    after (((ready 0x8015).setV 0 0x05).setV 1 0x05) (fun t => (t.getV 0, t.getV 15)) = some (0x00, 1) := by decide
/-- TA14, TA15. -/
theorem test_subnReg :
    after (((ready 0x8017).setV 0 0x05).setV 1 0x03) (fun t => (t.getV 0, t.getV 15)) = some (0xFE, 0) ∧
    after (((ready 0x8017).setV 0 0x03).setV 1 0x0A) (fun t => (t.getV 0, t.getV 15)) = some (0x07, 1) := by decide
/-- TA17, under both values of `SHIFT_SOURCE`. -/
theorem test_shr :
    after (((ready 0x8016).setV 0 0x01).setV 1 0xFF) (fun t => (t.getV 0, t.getV 15)) = some (0x00, 1) ∧
    after (((readyWith shiftVy 0x8016).setV 0 0x01).setV 1 0xFF) (fun t => (t.getV 0, t.getV 15)) = some (0x7F, 1) := by
  decide
/-- TA23, under both values of `SHIFT_SOURCE`. -/
theorem test_shl :
    after (((ready 0x801E).setV 0 0x01).setV 1 0x80) (fun t => (t.getV 0, t.getV 15)) = some (0x02, 0) ∧
    after (((readyWith shiftVy 0x801E).setV 0 0x01).setV 1 0x80) (fun t => (t.getV 0, t.getV 15)) = some (0x00, 1) := by
  decide
/-- TA25: any draw, masked by 0; the next draw is another one. -/
theorem test_rnd : after (ready 0xC300) (fun t => (t.getV 3, t.draws)) = some (0x00, 1) := by
  show some (Config.randByte 0 &&& 0#8, 1) = some (0#8, 1)
  simp

/-! ### Index register and memory -/

/-- TM1. -/
theorem test_ldI : after (ready 0xA2F0) (fun t => t.i) = some 0x2F0 := by decide
/-- TM3: the sum wraps in 16 bits; TM4: it passes 0xFFF without a fault. -/
theorem test_addI :
    after (((ready 0xF01E).setI 0xFFFF).setV 0 0x02) (fun t => (t.i, t.getV 15)) = some (0x0001, 0) ∧
    after (((ready 0xF01E).setI 0x0FFF).setV 0 0x01) (fun t => (t.i, t.getV 15)) = some (0x1000, 0) := by decide
/-- TM6, TM8: not masked. -/
theorem test_ldF :
    after ((ready 0xF029).setV 0 0x0F) (fun t => t.i) = some 0x04B ∧
    after ((ready 0xF029).setV 0 0xFF) (fun t => t.i) = some 0x4FB := by decide
/-- TM11: the last three bytes of memory. -/
theorem test_ldB :
    after (((ready 0xF033).setV 0 0x7B).setI 0xFFD) (fun t => [0xFFD, 0xFFE, 0xFFF].map t.byteAt) =
      some [0x01, 0x02, 0x03] := by decide
/-- TM12. -/
theorem test_ldB_out_of_range :
    faultOf ((ready 0xF033).setI 0xFFE) = some (.memoryOutOfRange ⟨0x200, 0xF033⟩ 0x1000) := by decide
/-- TM14. -/
theorem test_storeRegs :
    after (((ready 0xFF55).setV 15 0x09).setI 0xFF0) (fun t => ([0xFF0, 0xFFE, 0xFFF].map t.byteAt, t.i)) =
      some ([0x00, 0x00, 0x09], 0xFF0) := by decide
/-- TM15. -/
theorem test_storeRegs_out_of_range :
    faultOf ((ready 0xFF55).setI 0xFF1) = some (.memoryOutOfRange ⟨0x200, 0xFF55⟩ 0x1000) := by decide
/-- TM16: the default font. -/
theorem test_loadRegs :
    after (ready 0xFF65) (fun t => t.v.toList) =
      some [0xF0, 0x90, 0x90, 0x90, 0xF0, 0x20, 0x60, 0x20, 0x20, 0x70, 0xF0, 0x10, 0xF0, 0x80, 0xF0, 0xF0] := by decide
/-- TM18. -/
theorem test_loadRegs_out_of_range :
    faultOf ((ready 0xF065).setI 0x1000) = some (.memoryOutOfRange ⟨0x200, 0xF065⟩ 0x1000) := by decide

/-! ### Display -/

/-- The cells of one row that are set, as column numbers. -/
def rowSet (t : State) (y : Fin 32) : List Nat := ((List.finRange 64).filter fun x => t.fb.cell x y).map Fin.val

/-- TD4: both axes wrap. -/
theorem test_drw_wraps :
    after (((((ready 0xD012).setV 0 62).setV 1 31).setI 0x202).writeBytes 0x202 [0xFF, 0xFF])
      (fun t => (rowSet t 31, rowSet t 0, t.getV 15)) =
      some ([0, 1, 2, 3, 4, 5, 62, 63], [0, 1, 2, 3, 4, 5, 62, 63], 0) := by decide
/-- TD6: n = 0 resets VF; TD3's collision: a set cell is turned off. -/
theorem test_drw_flag :
    after ((ready 0xD010).setV 15 7) (fun t => t.getV 15) = some 0 ∧
    after (((ready 0xD011).setI 0x200).setFb (Framebuffer.blank.flip 0 0)) (fun t => (rowSet t 0, t.getV 15)) =
      some ([1, 3], 1) := by decide
/-- TD7. -/
theorem test_drw_out_of_range :
    faultOf ((ready 0xD015).setI 0xFFC) = some (.memoryOutOfRange ⟨0x200, 0xD015⟩ 0x1000) := by decide
/-- TD1. -/
theorem test_cls : after ((ready 0x00E0).setFb (Framebuffer.blank.flip 5 6)) (fun t => t.fb) = some Framebuffer.blank := by
  decide

/-! ### Keys and timers -/

/-- TK1, TK2. -/
theorem test_skp :
    after (((ready 0xE09E).setV 0 3).setKey 3 true) (fun t => t.pc) = some 0x204 ∧
    after ((ready 0xE09E).setV 0 3) (fun t => t.pc) = some 0x202 := by decide
/-- TK4. -/
theorem test_skp_out_of_range :
    faultOf ((ready 0xE09E).setV 0 16) = some (.keyIndexOutOfRange ⟨0x200, 0xE09E⟩ 16) := by decide
/-- TK3. -/
theorem test_sknp : after ((ready 0xE0A1).setV 0 3) (fun t => t.pc) = some 0x204 := by decide
/-- TK5. -/
theorem test_sknp_out_of_range :
    faultOf ((ready 0xE0A1).setV 0 0xFF) = some (.keyIndexOutOfRange ⟨0x200, 0xE0A1⟩ 0xFF) := by decide
/-- TK6: the lowest index, and both latches stay. -/
theorem test_ldVxK :
    after (((ready 0xF50A).setKey 9 true).setKey 3 true) (fun t => (t.getV 5, t.pc, t.getKey 3, t.getKey 9)) =
      some (3, 0x202, true, true) := by decide
/-- TK7. -/
theorem test_ldVxK_waits : after (ready 0xFF0A) (fun t => (t.pc, t.getV 15)) = some (0x200, 0) := by decide
/-- TK9. -/
theorem test_ldVxDt : after ((ready 0xF307).setDt 0x20) (fun t => t.getV 3) = some 0x20 := by decide
/-- TK10. -/
theorem test_ldDtVx : after ((ready 0xF315).setV 3 0x3C) (fun t => (t.dt, t.st)) = some (0x3C, 0) := by decide
/-- TK11. -/
theorem test_ldStVx : after ((ready 0xF318).setV 3 0x01) (fun t => (t.st, soundActive t, t.dt)) = some (1, true, 0) := by
  decide

/-! ### The host's transactions -/

/-- S6's first call. -/
theorem test_tick_timers :
    after (((State.reset.setDt 2).setSt 0).setSchedule [.tickTimers]) (fun t => (t.dt, t.st)) = some (1, 0) := by decide
/-- TK14. -/
theorem test_keypress_out_of_range :
    after (State.reset.setSchedule [.keypress 16 true]) (fun t => (t.key, t.pc)) = some (State.reset.key, 0x0200) ∧
    respond (.keypress 16 true) State.reset = .error (.keypressIndexOutOfRange 16) ∧
    respond (.keypress 15 true) State.reset = .ok := by decide
/-- TL3. -/
theorem test_load :
    after (State.reset.setSchedule [.load [0x12]]) (fun t => [0x1FF, 0x200, 0x201].map t.byteAt) =
      some [0x00, 0x12, 0x00] := by decide
/-- TL1's check: one byte too many. -/
theorem test_load_too_large :
    (match load (List.replicate 3585 0x01) State.reset with | .fault f => some f | _ => none) =
      some (.romTooLarge 3585) := by
  rw [load, List.length_replicate]
  rfl
/-- R49: cell (5, 6) stands at 6*64 + 5. -/
theorem test_framebuffer_read :
    (framebufferRead (State.reset.setFb (Framebuffer.blank.flip 5 6)))[6 * 64 + 5]? = some true := by decide
/-- R50. -/
theorem test_sound_read : respond .readSoundActive (State.reset.setSt 2) = .sound true := by decide

/-! ### Witnesses: states that meet the hypotheses of the statements, by the statement's name -/

theorem witness_EncodeOfDecodeIsTheWord : decode 0x8014 = .ok (.addReg 0 1) := by rfl
theorem witness_UnrecognizedWordsAreExactlyThoseListed :
    (ready 0x5121).fetchWord (ready 0x5121).pc.toNat = some 0x5121 ∧ wordUnrecognized 0x5121 = true := by decide
theorem witness_StepPerformsTheNextTransaction :
    (State.reset.setSchedule [.tickTimers, .tick]).schedule = [.tickTimers, .tick] ∧ State.reset.schedule = [] := by decide
theorem witness_StepRunsTheDecodedInstruction_at_the_last_word :
    let s := (State.reset.setPc 0xFFE).withFetchWord 16 0x8014
    (nextTransaction s).1 = .tick ∧ s.pc.toNat + 1 ≤ 0xFFF ∧
      (opcodeMap (wordOfBytes (s.byteAt s.pc.toNat) (s.byteAt (s.pc.toNat + 1)))) = some (.addReg 0 1) := by decide
theorem witness_FetchBeyondMemoryFaults : 0xFFF < (State.reset.setPc 0xFFF).pc.toNat + 1 := by decide
theorem witness_FetchIsBigEndian : (0xFFE + 1 ≤ 0xFFF) ∧ 0xFFF < 0xFFF + 1 := by decide
theorem witness_TickFaultsInOrder :
    (ready 0x00EE).fetchWord (ready 0x00EE).pc.toNat = some 0x00EE ∧
    checkOf .ret (ready 0x00EE).pc (ready 0x00EE) = some (.stackUnderflow ⟨0x200, 0x00EE⟩) ∧
    checkOf .nop (ready 0x0000).pc (ready 0x0000) = none ∧
    (ready 0x5121).fetchWord (ready 0x5121).pc.toNat = some 0x5121 := by decide
theorem witness_TickFaultsInOrder_decoding :
    decode 0x00EE = .ok .ret ∧ decode 0x0000 = .ok .nop ∧ decode 0x5121 = .error (.unrecognized 0x5121) := ⟨rfl, rfl, rfl⟩
/-- Each check on the two sides of its bound. -/
theorem witness_InstructionCompletesUnlessItsCheckFails :
    checkOf (.call 0) 0x200 (withDepth State.reset 15) = none ∧ (checkOf (.call 0) 0x200 (withDepth State.reset 16)).isSome ∧
    checkOf .ret 0x200 (withDepth State.reset 1) = none ∧ (checkOf .ret 0x200 State.reset).isSome ∧
    checkOf (.ldB 0) 0x200 (State.reset.setI 0xFFD) = none ∧ (checkOf (.ldB 0) 0x200 (State.reset.setI 0xFFE)).isSome ∧
    checkOf (.storeRegs 1) 0x200 (State.reset.setI 0xFFE) = none ∧
    (checkOf (.storeRegs 1) 0x200 (State.reset.setI 0xFFF)).isSome ∧
    checkOf (.loadRegs 0) 0x200 (State.reset.setI 0xFFF) = none ∧
    (checkOf (.loadRegs 0) 0x200 (State.reset.setI 0x1000)).isSome ∧
    checkOf (.drw 0 0 1) 0x200 (State.reset.setI 0xFFF) = none ∧
    (checkOf (.drw 0 0 1) 0x200 (State.reset.setI 0x1000)).isSome ∧
    checkOf (.drw 0 0 0) 0x200 (State.reset.setI 0xFFFF) = none ∧
    checkOf (.skp 0) 0x200 (State.reset.setV 0 15) = none ∧ (checkOf (.skp 0) 0x200 (State.reset.setV 0 16)).isSome ∧
    checkOf (.sknp 0) 0x200 (State.reset.setV 0 15) = none ∧ (checkOf (.sknp 0) 0x200 (State.reset.setV 0 16)).isSome := by
  decide
theorem witness_FaultLeavesStateAndRepeats :
    tick (ready 0x00EE) = .fault (.stackUnderflow ⟨0x200, 0x00EE⟩) ∧
    transact (.load (List.replicate 3585 0x01)) State.reset = .fault (.romTooLarge 3585) := by
  refine ⟨rfl, ?_⟩
  rw [transact, load, List.length_replicate]
  rfl
theorem witness_InstructionWritesOnlyWhatTheSpecLists : ∃ t, exec (.storeRegs 15) State.reset = .next t := ⟨_, rfl⟩
theorem witness_LatchesChangeOnlyByKeypress :
    (∃ t, transact .tickTimers State.reset = .next t) ∧ ∀ index pressed, Transaction.tickTimers ≠ .keypress index pressed :=
  ⟨⟨_, rfl⟩, by simp⟩
/-- Two states that differ in a stale slot, slot 0 of an empty stack. -/
theorem witness_StaleStackSlotsAreUnobservable :
    sameButStaleSlots State.reset { State.reset with stack := Vector.replicate 16 0x1234 } ∧
    State.reset ≠ { State.reset with stack := Vector.replicate 16 0x1234 } :=
  ⟨⟨rfl, fun k h => absurd h (by simp [State.reset, State.construct])⟩, by decide⟩
theorem witness_CallPushesTheReturnAddress :
    (withDepth State.reset 15).sp.val < 16 ∧ (withDepth State.reset 16).sp.val = 16 := by decide
theorem witness_RetPopsTheReturnAddress :
    (withDepth State.reset 1).sp.val = (0 : Fin 16).val + 1 ∧ (withDepth State.reset 16).sp.val = (15 : Fin 16).val + 1 ∧
    State.reset.sp.val = 0 := by decide
theorem witness_RetUndoesCall : ∃ t, exec (.call 0x300) (withDepth State.reset 15) = .next t := ⟨_, rfl⟩
theorem witness_ShiftsMoveTheEvictedBitToTheFlag :
    (0x81 : Byte) = (if (State.reset.setV 0 0x81).cfg.shiftSource = .vx then (State.reset.setV 0 0x81).getV 0
      else (State.reset.setV 0 0x81).getV 1) := by decide
theorem witness_BcdStoresThreeDigits :
    MemoryCanonical (State.reset.setI 0xFFD) ∧ (State.reset.setI 0xFFD).i.toNat + 2 ≤ 0xFFF ∧
    0xFFF < (State.reset.setI 0xFFE).i.toNat + 2 := by decide
theorem witness_StoreRegistersFillsMemoryFromI :
    MemoryCanonical (State.reset.setI 0xFF0) ∧ (State.reset.setI 0xFF0).i.toNat + (15 : Reg).val ≤ 0xFFF ∧
    0xFFF < (State.reset.setI 0xFF1).i.toNat + (15 : Reg).val := by decide
theorem witness_LoadRegistersReadsMemoryFromI :
    (State.reset.setI 0xFF0).i.toNat + (15 : Reg).val ≤ 0xFFF ∧
    0xFFF < (State.reset.setI 0xFF1).i.toNat + (15 : Reg).val := by decide
/-- The state in between is the one the store left, its registers cleared. -/
theorem witness_LoadAfterStoreRestoresRegisters :
    MemoryCanonical State.reset ∧ ∃ t, exec (.storeRegs 3) State.reset = .next t ∧
      ((t.setV 0 0x55).mem = t.mem ∧ (t.setV 0 0x55).cfg = t.cfg ∧ (t.setV 0 0x55).i = State.reset.i) :=
  ⟨by decide, _, rfl, rfl, rfl, rfl⟩
theorem witness_FetchSeesStoredBytes :
    MemoryCanonical State.reset ∧ (∃ t, exec (.storeRegs 15) State.reset = .next t) ∧
    ((15 : Reg) ≤ 15 ∧ (15 : Reg).val = (14 : Reg).val + 1) :=
  ⟨by decide, ⟨_, rfl⟩, by decide⟩
/-- The last row at 0xFFF, no rows at all above memory, and the first address out of range. -/
theorem witness_DrwInvertsTheCellsUnderTheSprite :
    (63 = ((State.reset.setV 0 0xFF).getV 0).toNat % 64 ∧ 31 = ((State.reset.setV 0 0xFF).getV 0).toNat % 32) ∧
    ((5 : Fin 16).val = 0 ∨ (State.reset.setI 0xFFB).i.toNat + (5 : Fin 16).val - 1 ≤ 0xFFF) ∧
    ((0 : Fin 16).val = 0 ∨ (State.reset.setI 0xFFFF).i.toNat + (0 : Fin 16).val - 1 ≤ 0xFFF) ∧
    (0 < (5 : Fin 16).val ∧ 0xFFF < (State.reset.setI 0xFFC).i.toNat + (5 : Fin 16).val - 1) := by decide
/-- Both cases of the collision: a set cell under the sprite, and none. -/
theorem witness_DrwInvertsTheCellsUnderTheSprite_collision :
    (spriteCovers 63 31 1 State.reset 63 31 = true ∧ (Framebuffer.blank.flip 63 31).cell 63 31 = true) ∧
    ¬∃ c r, spriteCovers 63 31 1 State.reset c r = true ∧ State.reset.fb.cell c r = true :=
  ⟨by decide, by rintro ⟨c, r, -, h⟩; simp [State.reset, State.construct, Framebuffer.cell] at h⟩
theorem witness_DrwTwiceRestoresTheFramebuffer : ∃ t, exec (.drw 0 0 5) State.reset = .next t := ⟨_, rfl⟩
theorem witness_KeySkipsTestTheLatch :
    ((State.reset.setV 0 15).getV 0).toNat = (15 : Fin 16).val ∧ (State.reset.getV 0).toNat = (0 : Fin 16).val ∧
    15 < ((State.reset.setV 0 16).getV 0).toNat := by decide
theorem witness_KeyWaitTakesTheLowestPressedKey :
    ((State.reset.setKey 15 true).key[(15 : Fin 16).val] = true ∧
      ∀ j : Fin 16, j < 15 → (State.reset.setKey 15 true).key[j.val] = false) ∧
    ∀ k : Fin 16, State.reset.key[k.val] = false := by decide
theorem witness_WaitingTickChangesNothing :
    (ready 0xF30A).fetchWord (ready 0xF30A).pc.toNat = some 0xF30A ∧ opcodeMap 0xF30A = some (.ldVxK 3) ∧
    ∀ k : Fin 16, (ready 0xF30A).key[k.val] = false := by decide
theorem witness_KeypressSetsOneLatch : 15 < 16 := by decide
theorem witness_ShortKeypressIsNeverSeen : State.reset.key[(15 : Fin 16).val] = false := by decide
theorem witness_LoadCopiesTheRom :
    MemoryCanonical State.reset ∧ (List.replicate 3584 (0x01 : Byte)).length ≤ 3584 ∧
    3584 < (List.replicate 3585 (0x01 : Byte)).length :=
  ⟨by decide, by rw [List.length_replicate], by rw [List.length_replicate]; decide⟩
theorem witness_UnloadedCoreRunsNopsThenFaults : 1792 ≤ 1792 := by decide
theorem witness_EveryStepKeepsMemoryCanonical :
    MemoryCanonical (ready 0xFF55) ∧ ∃ t, step (ready 0xFF55) = .next t := ⟨by decide, _, rfl⟩
theorem witness_CanonicalMemoryIsUnique :
    Memory.wf defaultFont [(0x000, 0x01), (0xFFF, 0x09)] ∧
    ∀ a, Memory.read defaultFont [(0x000, 0x01), (0xFFF, 0x09)] a = Memory.read defaultFont [(0x000, 0x01), (0xFFF, 0x09)] a :=
  ⟨by decide, fun _ => rfl⟩
theorem witness_EveryStepKeepsTheCounterBounded :
    CounterBounded (withDepth (ready 0x2300) 15) ∧ ∃ t, step (withDepth (ready 0x2300) 15) = .next t :=
  ⟨by unfold CounterBounded; decide, _, rfl⟩
theorem witness_PlacedWordRunsNext : MemoryCanonical State.reset ∧ decode 0x8014 = .ok (.addReg 0 1) := ⟨by decide, rfl⟩
theorem witness_SelfJumpNeverLeaves :
    (ready 0x1200).pc.toNat = (0x200 : BitVec 12).toNat ∧ (ready 0x1200).schedule = [] ∧
    (ready 0x1200).fetchWord (0x200 : BitVec 12).toNat = some (encode (.jp 0x200)) := by decide

/-- The codes of R230 on three faults. -/
theorem test_fault_codes :
    (faultOf (ready 0xFFFF)).map Fault.code = some 3 ∧ (faultOf (ready 0x00EE)).map Fault.code = some 5 ∧
    CallerError.code (.keypressIndexOutOfRange 16) = 8 := by decide

end Sys2Proof.Tests
end

section
/-! PROOFS. Reset and invariants (10_state.md): what the accessors read from the constructed state. -/

namespace Sys2Proof.Machine

/-! ### What an unlisted address reads as (R62) -/

theorem Memory.unlisted_of_lt (font : Vector Byte 80) {a : Nat} (h : a < 80) : Memory.unlisted font a = font[a] :=
  dif_pos h

theorem Memory.unlisted_of_le (font : Vector Byte 80) {a : Nat} (h : 80 ≤ a) : Memory.unlisted font a = 0 :=
  dif_neg (Nat.not_lt.2 h)

/-! ### The constructed state, read through the accessors (R20) -/

@[simp] theorem State.getV_construct (cfg : Config) (r : Reg) : (State.construct cfg).getV r = 0 :=
  Vector.getElem_replicate r.isLt

theorem State.stack_construct (cfg : Config) (k : Fin 16) : (State.construct cfg).stack[k.val] = 0 :=
  Vector.getElem_replicate k.isLt

theorem State.key_construct (cfg : Config) (k : Fin 16) : (State.construct cfg).key[k.val] = false :=
  Vector.getElem_replicate k.isLt

@[simp] theorem State.fb_construct (cfg : Config) : (State.construct cfg).fb = Framebuffer.blank := rfl

@[simp] theorem State.byteAt_construct (cfg : Config) (a : Nat) :
    (State.construct cfg).byteAt a = Memory.unlisted cfg.font a := rfl

/-- Settles O51: the scalar components are the literals of `State.construct`, each vector is read cell by cell, and memory,
which lists nothing, reads as the font below 80 and as 0x00 from there on. -/
theorem constructionLeavesTheResetState : Obligations.ConstructionLeavesTheResetState := by
  intro cfg
  refine ⟨State.getV_construct cfg, rfl, rfl, rfl, State.stack_construct cfg, rfl, rfl, State.key_construct cfg,
    fun c r => ?framebuffer, fun a => ?font, fun a ha _ => ?zeros⟩
  case framebuffer => rw [State.fb_construct, Framebuffer.cell_blank]
  case font => rw [State.byteAt_construct, Memory.unlisted_of_lt cfg.font a.isLt]
  case zeros => rw [State.byteAt_construct, Memory.unlisted_of_le cfg.font ha]

end Sys2Proof.Machine
end

section
/-! PROOFS. Control flow (40_control_flow.md): the decoder on words of layout `nnn`, and what a push and a CALL change. -/

namespace Sys2Proof.Machine

/-! ### Decoding a word of layout `nnn` (R90, R91) -/

theorem nibble1_wordNNN (d : Fin 16) (nnn : BitVec 12) : nibble1 (wordNNN d.val nnn) = d.val :=
  Laws.bits_wordNNN d nnn ⟨15, 12, d.val⟩ (by simp)

theorem fieldNNN_wordNNN (d : Fin 16) (nnn : BitVec 12) : fieldNNN (wordNNN d.val nnn) = nnn := by
  have hbits : bitField (wordNNN d.val nnn) 11 0 = nnn.toNat := Laws.bits_wordNNN d nnn ⟨11, 0, nnn.toNat⟩ (by simp)
  rw [fieldNNN, hbits, BitVec.ofNat_toNat, BitVec.setWidth_eq]

theorem decode_of_opcodeMap {w : Word} {i : Instr} (h : opcodeMap w = some i) : decode w = .ok i := by
  simp [decode, h]

theorem isWordOf_call (nnn : BitVec 12) : isWordOf (0x2000 + nnn.toNat) (.call nnn) := by
  have hnibble : nibble1 (wordNNN 0x2 nnn) = 0x2 := nibble1_wordNNN 0x2 nnn
  have hfield : fieldNNN (wordNNN 0x2 nnn) = nnn := fieldNNN_wordNNN 0x2 nnn
  have hmap : opcodeMap (wordNNN 0x2 nnn) = some (.call nnn) := by simp [opcodeMap, hnibble, hfield]
  exact decode_of_opcodeMap hmap

/-! ### Jump targets and frames -/

/-- A 12-bit target is never truncated (R91). -/
theorem targetOf_toNat (nnn : BitVec 12) : (targetOf nnn).toNat = nnn.toNat :=
  BitVec.toNat_setWidth_of_le (by decide)

/-- Setting PC after a change adds only PC to what changed. -/
theorem changesOnlyParts.setPc {parts : List Part} {s t : State} (h : changesOnlyParts parts s t) (a : Word) :
    changesOnlyParts (.counter :: parts) s (t.setPc a) := by
  obtain ⟨hregs, hparts, hmem⟩ := h
  refine ⟨hregs, fun p hp => ?_, hmem⟩
  cases p with
  | counter => exact absurd List.mem_cons_self hp
  | _ => exact hparts _ (List.not_mem_of_not_mem_cons hp)

/-! ### The push and the CALL (R30, R124) -/

/-- A push on a stack with room writes the slot at SP and adds one to SP; nothing else changes. -/
theorem State.push_spec {s : State} (h : s.sp.val < 16) (a : Word) :
    ∃ t, s.push a = some t ∧ t.sp.val = s.sp.val + 1 ∧
      (∀ k : Fin 16, t.stack[k.val] = if k.val = s.sp.val then a else s.stack[k.val]) ∧
      changesOnlyParts [.callStack] s t := by
  refine ⟨_, State.push_of_lt h a, rfl, fun k => ?slots, fun _ _ => rfl, fun p hp => ?parts, fun _ => rfl⟩
  case slots => simp only [Vector.getElem_set, eq_comm]
  case parts =>
    cases p with
    | callStack => exact absurd List.mem_cons_self hp
    | _ => rfl

theorem exec_call_of_push {s t : State} (h : s.push s.pc = some t) (nnn : BitVec 12) :
    exec (.call nnn) s = .next (t.setPc (targetOf nnn)) := by
  simp [exec, execCall, h]

theorem exec_call_full {s : State} (h : s.sp.val = 16) (nnn : BitVec 12) :
    exec (.call nnn) s = .fault (.stackOverflow (faultSite (.call nnn) s)) := by
  simp [exec, execCall, State.push_full h, raise]

/-- Settles O21: with room, CALL is the push of the advanced PC followed by setting PC; with SP = 16 the push fails. -/
theorem callPushesTheReturnAddress : Obligations.CallPushesTheReturnAddress := by
  intro s nnn
  refine ⟨isWordOf_call nnn, fun hroom => ?room, fun hfull => ⟨_, exec_call_full hfull nnn⟩⟩
  case room =>
    obtain ⟨t, hpush, hsp, hslots, hframe⟩ := State.push_spec hroom s.pc
    exact ⟨t.setPc (targetOf nnn), exec_call_of_push hpush nnn, hsp, targetOf_toNat nnn, hslots, hframe.setPc _⟩

/-! ### NOP (R121) -/

/-- Settles O17: the word 0x0000 decodes by evaluation, and NOP's meaning answers the state it is given. -/
theorem nopChangesNothing : Obligations.NopChangesNothing :=
  ⟨decode_of_opcodeMap rfl, fun _ => rfl⟩

end Sys2Proof.Machine
end

section
/-! PROOFS. Register and arithmetic-logic instructions (41_register_alu.md): the decoder on words of layouts `x, nn` and `x, y`
with d4, and what an instruction whose whole effect is one register write changes. -/

namespace Sys2Proof.Machine

/-! ### The fields of a word of layout `x, nn` (R90, R91) -/

@[simp] theorem nibble1_wordXNN {d : Nat} (hd : d < 16) (x : Reg) (nn : Byte) : nibble1 (wordXNN d x nn) = d :=
  Laws.bits_wordXNN ⟨d, hd⟩ x nn ⟨15, 12, d⟩ (by simp)

@[simp] theorem fieldX_wordXNN {d : Nat} (hd : d < 16) (x : Reg) (nn : Byte) : fieldX (wordXNN d x nn) = x := by
  have hbits : bitField (wordXNN d x nn) 11 8 = x.val := Laws.bits_wordXNN ⟨d, hd⟩ x nn ⟨11, 8, x.val⟩ (by simp)
  rw [fieldX, hbits, Fin.ofNat_val_eq_self]

@[simp] theorem fieldNN_wordXNN {d : Nat} (hd : d < 16) (x : Reg) (nn : Byte) : fieldNN (wordXNN d x nn) = nn := by
  have hbits : bitField (wordXNN d x nn) 7 0 = nn.toNat := Laws.bits_wordXNN ⟨d, hd⟩ x nn ⟨7, 0, nn.toNat⟩ (by simp)
  rw [fieldNN, hbits, BitVec.ofNat_toNat, BitVec.setWidth_eq]

/-! ### The fields of a word of layout `x, y` with d4 (R90, R91) -/

section
variable {d d4 : Nat} (hd : d < 16) (hd4 : d4 < 16) (x y : Reg)
include hd hd4

theorem bits_wordXYN_of_lt : ∀ b ∈ [(⟨3, 0, d4⟩ : Laws.TableBits), ⟨15, 12, d⟩, ⟨11, 8, x.val⟩, ⟨7, 4, y.val⟩],
    bitField (wordXYN d x y d4) b.hi b.lo = b.value :=
  Laws.bits_wordXYN ⟨d, hd⟩ x y ⟨d4, hd4⟩

@[simp] theorem nibble1_wordXYN : nibble1 (wordXYN d x y d4) = d :=
  bits_wordXYN_of_lt hd hd4 x y ⟨15, 12, d⟩ (by simp)

@[simp] theorem nibble4_wordXYN : nibble4 (wordXYN d x y d4) = d4 :=
  bits_wordXYN_of_lt hd hd4 x y ⟨3, 0, d4⟩ (by simp)

@[simp] theorem fieldX_wordXYN : fieldX (wordXYN d x y d4) = x := by
  have hbits : bitField (wordXYN d x y d4) 11 8 = x.val := bits_wordXYN_of_lt hd hd4 x y ⟨11, 8, x.val⟩ (by simp)
  rw [fieldX, hbits, Fin.ofNat_val_eq_self]

@[simp] theorem fieldY_wordXYN : fieldY (wordXYN d x y d4) = y := by
  have hbits : bitField (wordXYN d x y d4) 7 4 = y.val := bits_wordXYN_of_lt hd hd4 x y ⟨7, 4, y.val⟩ (by simp)
  rw [fieldY, hbits, Fin.ofNat_val_eq_self]

end

/-! ### The words of the loads and of ADD Vx, nn (R96) -/

/-- The statements write a word as a sum; the opcode map is evaluated on the encoder's form of it. -/
theorem isWordOf_of_wordXNN {d : Nat} {x : Reg} {nn : Byte} {i : Instr} (h : opcodeMap (wordXNN d x nn) = some i) :
    isWordOf (d * 0x1000 + 0x100 * x.val + nn.toNat) i := by
  rw [isWordOf, Nat.mul_comm 0x100]
  exact decode_of_opcodeMap h

/-- The same for a word of layout `x, y` with d4. -/
theorem isWordOf_of_wordXYN {d d4 : Nat} {x y : Reg} {i : Instr} (h : opcodeMap (wordXYN d x y d4) = some i) :
    isWordOf (d * 0x1000 + 0x100 * x.val + 0x10 * y.val + d4) i := by
  rw [isWordOf, Nat.mul_comm 0x100, Nat.mul_comm 0x10]
  exact decode_of_opcodeMap h

theorem isWordOf_ldImm (x : Reg) (nn : Byte) : isWordOf (0x6000 + 0x100 * x.val + nn.toNat) (.ldImm x nn) := by
  have hmap : opcodeMap (wordXNN 0x6 x nn) = some (.ldImm x nn) := by simp [opcodeMap]
  exact isWordOf_of_wordXNN hmap

theorem isWordOf_addImm (x : Reg) (nn : Byte) : isWordOf (0x7000 + 0x100 * x.val + nn.toNat) (.addImm x nn) := by
  have hmap : opcodeMap (wordXNN 0x7 x nn) = some (.addImm x nn) := by simp [opcodeMap]
  exact isWordOf_of_wordXNN hmap

theorem isWordOf_ldReg (x y : Reg) : isWordOf (0x8000 + 0x100 * x.val + 0x10 * y.val) (.ldReg x y) := by
  have hmap : opcodeMap (wordXYN 0x8 x y 0x0) = some (.ldReg x y) := by simp [opcodeMap, decodeGroup8]
  exact isWordOf_of_wordXYN hmap

/-! ### One register write (R15, R22) -/

theorem changesOnlyRegs_setV (s : State) (x : Reg) (b : Byte) : changesOnlyRegs [x] s (s.setV x b) := by
  refine ⟨fun r hr => ?registers, fun p _ => ?parts, State.byteAt_setV s x b⟩
  case registers => exact State.getV_setV_other s x r b (List.ne_of_not_mem_cons hr).symm
  case parts =>
    cases p with
    | callStack => exact ⟨rfl, rfl⟩
    | _ => rfl

/-- An instruction whose meaning is one register write completes with that value there and nothing else changed. -/
theorem completes_of_exec_eq_setV {i : Instr} {s : State} {x : Reg} {b : Byte} (h : exec i s = .next (s.setV x b)) :
    ∃ t, exec i s = .next t ∧ t.getV x = b ∧ changesOnlyRegs [x] s t :=
  ⟨s.setV x b, h, State.getV_setV_same s x b, changesOnlyRegs_setV s x b⟩

theorem exec_ldImm (x : Reg) (nn : Byte) (s : State) : exec (.ldImm x nn) s = .next (s.setV x nn) := rfl

theorem exec_ldReg (x y : Reg) (s : State) : exec (.ldReg x y) s = .next (s.setV x (s.getV y)) := rfl

theorem exec_addImm (x : Reg) (nn : Byte) (s : State) : exec (.addImm x nn) s = .next (s.setV x (s.getV x + nn)) := rfl

/-- Settles O24: each load is one register write. -/
theorem loadsWriteOnlyVx : Obligations.LoadsWriteOnlyVx := by
  intro s x y nn
  exact ⟨⟨isWordOf_ldImm x nn, completes_of_exec_eq_setV (exec_ldImm x nn s)⟩,
    ⟨isWordOf_ldReg x y, completes_of_exec_eq_setV (exec_ldReg x y s)⟩⟩

/-- Settles O26: the one register write is of a sum of bytes, whose value is the sum of the values modulo 2^8 (R153). -/
theorem addImmediateWrapsWithoutFlag : Obligations.AddImmediateWrapsWithoutFlag := by
  intro s x nn
  obtain ⟨t, hexec, hvalue, hframe⟩ := completes_of_exec_eq_setV (exec_addImm x nn s)
  have hsum : (t.getV x).toNat = ((s.getV x).toNat + nn.toNat) % 256 := by rw [hvalue, BitVec.toNat_add]
  exact ⟨isWordOf_addImm x nn, t, hexec, hsum, hframe⟩

end Sys2Proof.Machine
end

section
/-! PROOFS. Display instructions (43_display.md): what replacing the framebuffer changes, and CLS as the instruction that replaces
it by the blank one. -/

namespace Sys2Proof.Machine

/-- Replacing the framebuffer changes nothing but the display. -/
theorem changesOnlyParts_setFb (s : State) (fb : Framebuffer) : changesOnlyParts [.display] s (s.setFb fb) := by
  refine ⟨fun r _ => State.getV_setFb s fb r, fun p hp => ?parts, State.byteAt_setFb s fb⟩
  case parts =>
    cases p with
    | display => exact absurd List.mem_cons_self hp
    | callStack => exact ⟨rfl, rfl⟩
    | _ => rfl

theorem exec_cls (s : State) : exec .cls s = .next (s.setFb Framebuffer.blank) := rfl

/-- Settles O38: CLS is one replacement of the framebuffer, by one whose every cell is false (R190). -/
theorem clsClearsEveryCell : Obligations.ClsClearsEveryCell :=
  ⟨decode_of_opcodeMap rfl, fun s =>
    ⟨s.setFb Framebuffer.blank, exec_cls s, Framebuffer.cell_blank, changesOnlyParts_setFb s Framebuffer.blank⟩⟩

end Sys2Proof.Machine
end

section
/-! PROOFS. Encoding and decoding (30_encoding.md): the decoder is undone by the encoder and undoes it, the words it rejects are
those of R97, and how many it recognizes. -/

namespace Sys2Proof.Machine

/-! ### The fields of words of layouts `nnn` and `x` (R90, R91) -/

section
variable {d : Nat} (hd : d < 16)
include hd

@[simp] theorem nibble1_wordNNN_of_lt (nnn : BitVec 12) : nibble1 (wordNNN d nnn) = d := nibble1_wordNNN ⟨d, hd⟩ nnn

@[simp] theorem fieldNNN_wordNNN_of_lt (nnn : BitVec 12) : fieldNNN (wordNNN d nnn) = nnn := fieldNNN_wordNNN ⟨d, hd⟩ nnn

variable {low : Nat} (hlow : low < 256) (x : Reg)
include hlow

theorem bits_wordX_of_lt : ∀ b ∈ [(⟨7, 0, low⟩ : Laws.TableBits), ⟨15, 12, d⟩, ⟨11, 8, x.val⟩],
    bitField (wordX d x low) b.hi b.lo = b.value := by
  have hbits := Laws.bits_wordX ⟨d, hd⟩ x (BitVec.ofNat 8 low)
  rwa [BitVec.toNat_ofNat, Nat.mod_eq_of_lt hlow] at hbits

@[simp] theorem nibble1_wordX : nibble1 (wordX d x low) = d :=
  bits_wordX_of_lt hd hlow x ⟨15, 12, d⟩ (by simp)

@[simp] theorem lowBits_wordX : bitField (wordX d x low) 7 0 = low :=
  bits_wordX_of_lt hd hlow x ⟨7, 0, low⟩ (by simp)

@[simp] theorem fieldX_wordX : fieldX (wordX d x low) = x := by
  have hbits : bitField (wordX d x low) 11 8 = x.val := bits_wordX_of_lt hd hlow x ⟨11, 8, x.val⟩ (by simp)
  rw [fieldX, hbits, Fin.ofNat_val_eq_self]

end

@[simp] theorem fieldN_wordXYN {d : Nat} (hd : d < 16) (x y : Reg) (n : Fin 16) : fieldN (wordXYN d x y n.val) = n := by
  have hbits : bitField (wordXYN d x y n.val) 3 0 = n.val := nibble4_wordXYN hd n.isLt x y
  rw [fieldN, hbits, Fin.ofNat_val_eq_self]

/-! ### Decode after encode -/

/-- The opcode map reads every instruction back from its word: the leading nibble picks the group, the low bits the row, and
the fields are the operands (R94, R96). -/
@[simp] theorem opcodeMap_encode (i : Instr) : opcodeMap (encode i) = some i := by
  cases i with
  | nop | cls | ret => rfl
  | ldReg | orReg | andReg | xorReg | addReg | subReg | shr | subnReg | shl => simp [encode, opcodeMap, decodeGroup8]
  | skp | sknp => simp [encode, opcodeMap, decodeGroupE]
  | ldVxDt | ldVxK | ldDtVx | ldStVx | addI | ldF | ldB | storeRegs | loadRegs => simp [encode, opcodeMap, decodeGroupF]
  | _ => simp [encode, opcodeMap]

@[simp] theorem decode_encode (i : Instr) : decode (encode i) = .ok i := decode_of_opcodeMap (opcodeMap_encode i)

theorem decodeBytes_encodeBytes (i : Instr) (rest : List Byte) : decodeBytes (encodeBytes i ++ rest) = .ok (i, rest) := by
  simp [encodeBytes, decodeBytes, wordOfBytes_highByte_lowByte]

/-! ### Encode after decode -/

theorem decode_eq_ok {w : Word} {i : Instr} : decode w = .ok i ↔ opcodeMap w = some i := by
  unfold decode
  split <;> simp_all

/-- A word is put together again from its leading nibble and its field `nnn`. -/
theorem wordNNN_fields {w : Word} {d : Nat} (h : nibble1 w = d) : wordNNN d (fieldNNN w) = w := by
  have hw := w.isLt
  apply BitVec.eq_of_toNat_eq
  simp only [nibble1, bitField, wordNNN, fieldNNN, BitVec.toNat_ofNat] at h ⊢
  omega

theorem wordXNN_fields {w : Word} {d : Nat} (h : nibble1 w = d) : wordXNN d (fieldX w) (fieldNN w) = w := by
  have hw := w.isLt
  apply BitVec.eq_of_toNat_eq
  simp only [nibble1, bitField, wordXNN, fieldX, fieldNN, Fin.ofNat, BitVec.toNat_ofNat] at h ⊢
  omega

theorem wordXYN_fields {w : Word} {d d4 : Nat} (h : nibble1 w = d) (h4 : nibble4 w = d4) :
    wordXYN d (fieldX w) (fieldY w) d4 = w := by
  have hw := w.isLt
  apply BitVec.eq_of_toNat_eq
  simp only [nibble1, nibble4, bitField, wordXYN, fieldX, fieldY, Fin.ofNat, BitVec.toNat_ofNat] at h h4 ⊢
  omega

theorem wordX_fields {w : Word} {d low : Nat} (h : nibble1 w = d) (hlow : bitField w 7 0 = low) :
    wordX d (fieldX w) low = w := by
  have hw := w.isLt
  apply BitVec.eq_of_toNat_eq
  simp only [nibble1, bitField, wordX, fieldX, Fin.ofNat, BitVec.toNat_ofNat] at h hlow ⊢
  omega

/-- In the 0-group the low twelve bits are the whole word. -/
theorem eq_ofNat_of_nibble1_zero {w : Word} {k : Nat} (h : nibble1 w = 0) (hk : bitField w 11 0 = k) :
    BitVec.ofNat 16 k = w := by
  have hw := w.isLt
  apply BitVec.eq_of_toNat_eq
  simp only [nibble1, bitField, BitVec.toNat_ofNat] at h hk ⊢
  omega

theorem encode_of_decodeGroup0 {w : Word} {i : Instr} (h1 : nibble1 w = 0x0) (h : decodeGroup0 w = some i) : encode i = w := by
  unfold decodeGroup0 at h
  split at h <;> cases h <;> exact eq_ofNat_of_nibble1_zero h1 ‹_›

theorem encode_of_decodeGroup8 {w : Word} {i : Instr} (h1 : nibble1 w = 0x8) (h : decodeGroup8 w = some i) : encode i = w := by
  unfold decodeGroup8 at h
  split at h <;> cases h <;> exact wordXYN_fields h1 ‹_›

theorem encode_of_decodeGroupE {w : Word} {i : Instr} (h1 : nibble1 w = 0xE) (h : decodeGroupE w = some i) : encode i = w := by
  unfold decodeGroupE at h
  split at h <;> cases h <;> exact wordX_fields h1 ‹_›

theorem encode_of_decodeGroupF {w : Word} {i : Instr} (h1 : nibble1 w = 0xF) (h : decodeGroupF w = some i) : encode i = w := by
  unfold decodeGroupF at h
  split at h <;> cases h <;> exact wordX_fields h1 ‹_›

/-- Every word that the opcode map recognizes is the encoding of what it is read as: each row fixes exactly the bits that its
fields leave (R90, R96). -/
theorem encode_of_opcodeMap {w : Word} {i : Instr} (h : opcodeMap w = some i) : encode i = w := by
  unfold opcodeMap at h
  split at h <;> rename_i h1
  case h_1 => exact encode_of_decodeGroup0 h1 h
  case h_6 | h_10 =>
    split at h <;> cases h
    exact wordXYN_fields h1 ‹_›
  case h_9 => exact encode_of_decodeGroup8 h1 h
  case h_14 => cases h; exact wordXYN_fields h1 (by simp [fieldN, nibble4, bitField])
  case h_15 => exact encode_of_decodeGroupE h1 h
  case h_16 => exact encode_of_decodeGroupF h1 h
  case h_2 | h_3 | h_11 | h_12 => cases h; exact wordNNN_fields h1
  case h_4 | h_5 | h_7 | h_8 | h_13 => cases h; exact wordXNN_fields h1
  case h_17 => cases h

/-- Settles O3: through the opcode map, row by row. -/
theorem encodeOfDecodeIsTheWord : Obligations.EncodeOfDecodeIsTheWord :=
  fun _ _ h => encode_of_opcodeMap (decode_eq_ok.1 h)

/-! ### The words that are rejected (R97) -/

/-- The list of R97, said of the fields that the opcode map looks at. -/
theorem wordUnrecognized_iff (w : Word) : wordUnrecognized w = true ↔
    (nibble1 w = 0x0 ∧ bitField w 11 0 ∉ [0x000, 0x0E0, 0x0EE]) ∨
    (nibble1 w = 0x5 ∧ nibble4 w ≠ 0) ∨
    (nibble1 w = 0x8 ∧ nibble4 w ∉ [0x0, 0x1, 0x2, 0x3, 0x4, 0x5, 0x6, 0x7, 0xE]) ∨
    (nibble1 w = 0x9 ∧ nibble4 w ≠ 0) ∨
    (nibble1 w = 0xE ∧ bitField w 7 0 ∉ [0x9E, 0xA1]) ∨
    (nibble1 w = 0xF ∧ bitField w 7 0 ∉ [0x07, 0x0A, 0x15, 0x18, 0x1E, 0x29, 0x33, 0x55, 0x65]) := by
  have hw := w.isLt
  have hnibble1 : nibble1 w = w.toNat / 0x1000 := by simp only [nibble1, bitField]; omega
  have hzero : groupZeroUnrecognized w.toNat = true ↔ nibble1 w = 0x0 ∧ bitField w 11 0 ∉ [0x000, 0x0E0, 0x0EE] := by
    simp [groupZeroUnrecognized, hnibble1, bitField]
    omega
  have height : groupEightUnrecognized w.toNat = true ↔
      nibble1 w = 0x8 ∧ nibble4 w ∉ [0x0, 0x1, 0x2, 0x3, 0x4, 0x5, 0x6, 0x7, 0xE] := by
    simp [groupEightUnrecognized, hnibble1, nibble4, bitField]
    omega
  simp [wordUnrecognized, hzero, height, groupFiveUnrecognized, groupNineUnrecognized, groupEUnrecognized,
    groupFUnrecognized, hnibble1, nibble4, bitField, or_assoc]

theorem decodeGroup0_eq_none {w : Word} : decodeGroup0 w = none ↔ bitField w 11 0 ∉ [0x000, 0x0E0, 0x0EE] := by
  unfold decodeGroup0
  split <;> simp_all

theorem decodeGroup8_eq_none {w : Word} : decodeGroup8 w = none ↔ nibble4 w ∉ [0x0, 0x1, 0x2, 0x3, 0x4, 0x5, 0x6, 0x7, 0xE] := by
  unfold decodeGroup8
  split <;> simp_all

theorem decodeGroupE_eq_none {w : Word} : decodeGroupE w = none ↔ bitField w 7 0 ∉ [0x9E, 0xA1] := by
  unfold decodeGroupE
  split <;> simp_all

theorem decodeGroupF_eq_none {w : Word} : decodeGroupF w = none ↔
    bitField w 7 0 ∉ [0x07, 0x0A, 0x15, 0x18, 0x1E, 0x29, 0x33, 0x55, 0x65] := by
  unfold decodeGroupF
  split <;> simp_all

/-- The opcode map of R96 leaves out exactly the words that R97 lists: by the leading nibble, each group against its entry. -/
theorem opcodeMap_eq_none {w : Word} : opcodeMap w = none ↔ wordUnrecognized w = true := by
  have hlt : nibble1 w < 16 := Nat.mod_lt _ (by decide)
  rw [wordUnrecognized_iff]
  unfold opcodeMap
  split <;> rename_i h1
  case h_1 => rw [decodeGroup0_eq_none]; simp [h1]
  case h_9 => rw [decodeGroup8_eq_none]; simp [h1]
  case h_15 => rw [decodeGroupE_eq_none]; simp [h1]
  case h_16 => rw [decodeGroupF_eq_none]; simp [h1]
  case h_17 => exfalso; simp only [imp_false] at *; omega
  all_goals simp [h1]

theorem wordWellFormed_iff {w : Word} : wordWellFormed w = true ↔ ∃ i, opcodeMap w = some i := by
  rw [wordWellFormed, Bool.not_eq_true', ← Bool.not_eq_true, ← opcodeMap_eq_none, ← ne_eq, Option.ne_none_iff_exists']

/-- Settles O2: the opcode map undoes the encoder, and a word that it reads is not listed in R97. -/
theorem decodeOfEncodeIsTheInstruction : Obligations.DecodeOfEncodeIsTheInstruction :=
  fun i rest => ⟨decode_encode i, decodeBytes_encodeBytes i rest, wordWellFormed_iff.2 ⟨i, opcodeMap_encode i⟩⟩

theorem decode_eq_error {w : Word} {r : DecodeReject} :
    decode w = .error r ↔ opcodeMap w = none ∧ r = .unrecognized w := by
  cases h : opcodeMap w <;> simp [decode, h, eq_comm]

theorem tick_of_reject {s : State} {w : Word} {r : DecodeReject} (hw : s.fetchWord s.pc.toNat = some w)
    (hr : decode w = .error r) : tick s = .fault (.unrecognizedOpcode { pc := s.pc, word := w }) := by
  simp [tick, hw, hr, raise]

/-- Settles O4: a word is rejected when the opcode map leaves it out, and those are the words of R97. -/
theorem unrecognizedWordsAreExactlyThoseListed : Obligations.UnrecognizedWordsAreExactlyThoseListed := by
  have hreject (w : Word) : wordUnrecognized w = true ↔ decode w = .error (.unrecognized w) := by
    rw [decode_eq_error, opcodeMap_eq_none, and_iff_left rfl]
  exact ⟨hreject, fun s w hw hlisted => tick_of_reject hw ((hreject w).1 hlisted)⟩

/-- Settles O1: each word is the encoding of its instruction, by evaluation. -/
theorem wordsWrittenFromTheTableDecode : Obligations.WordsWrittenFromTheTableDecode := by
  refine ⟨?_, ?_, ?_, ?_, ?_, ?_, ?_, ?_, ?_, ?_, ?_, ?_⟩ <;> exact decode_of_opcodeMap rfl

/-! ### The words of R98, counted -/

/-- A predicate on remainders holds equally often in every block of consecutive numbers. -/
theorem countP_range_mod (p : Nat → Bool) (m blocks : Nat) :
    (List.range (m * blocks)).countP (fun k => p (k % m)) = (List.range m).countP p * blocks := by
  induction blocks with
  | zero => simp
  | succ blocks ih =>
    have hblock : (List.range m).countP (fun k => p ((m * blocks + k) % m)) = (List.range m).countP p :=
      List.countP_congr fun k hk => by rw [Nat.mul_add_mod, Nat.mod_eq_of_lt (List.mem_range.1 hk)]
    rw [Nat.mul_succ, List.range_add, List.countP_append, ih, List.countP_map, Nat.mul_succ]
    exact congrArg _ hblock

/-- The numbers of a list, counted in a range that holds them all. -/
theorem countP_range_mem {rows : List Nat} {m : Nat} (hnodup : rows.Nodup) (hlt : ∀ k ∈ rows, k < m) :
    (List.range m).countP (fun k => decide (k ∈ rows)) = rows.length := by
  have hmem (k : Nat) : k ∈ (List.range m).filter (fun k => decide (k ∈ rows)) ↔ k ∈ rows := by
    simpa using hlt k
  rw [List.countP_eq_length_filter]
  exact ((List.perm_ext_iff_of_nodup (List.nodup_range.filter _) hnodup).2 hmem).length_eq

theorem nibble1_ofNat {d k : Nat} (hd : d < 16) (hk : k < 4096) : nibble1 (BitVec.ofNat 16 (d * 4096 + k)) = d := by
  simp only [nibble1, bitField, BitVec.toNat_ofNat]
  omega

/-- Low bits of a word of a group are the remainder of its low twelve bits. -/
theorem bitField_ofNat {d k hi blocks : Nat} (hd : d < 16) (hk : k < 4096) (hblocks : 2 ^ (hi + 1) * blocks = 4096) :
    bitField (BitVec.ofNat 16 (d * 4096 + k)) hi 0 = k % 2 ^ (hi + 1) := by
  simp only [bitField, BitVec.toNat_ofNat, Nat.pow_zero, Nat.div_one, Nat.sub_zero]
  rw [Nat.mod_eq_of_lt (show d * 4096 + k < 2 ^ 16 by omega), Nat.mul_comm d, ← hblocks, Nat.mul_assoc, Nat.mul_add_mod]

/-- A group whose rows are told apart by bits `hi` to 0 recognizes each row once in every block of that many bits. -/
theorem recognizedInGroup_of_rows {d hi blocks : Nat} {rows : List Nat} (hd : d < 16) (hblocks : 2 ^ (hi + 1) * blocks = 4096)
    (hnodup : rows.Nodup) (hlt : ∀ k ∈ rows, k < 2 ^ (hi + 1))
    (hrows : ∀ w, nibble1 w = d → (wordUnrecognized w = true ↔ bitField w hi 0 ∉ rows)) :
    recognizedInGroup d = rows.length * blocks := by
  rw [← countP_range_mem hnodup hlt, ← countP_range_mod, hblocks, recognizedInGroup]
  refine List.countP_congr fun k hk => ?_
  have hk := List.mem_range.1 hk
  rw [Option.isSome_iff_ne_none, ne_eq, opcodeMap_eq_none, hrows _ (nibble1_ofNat hd hk), bitField_ofNat hd hk hblocks]
  simp

/-- A group that R97 does not name recognizes all of its words. -/
theorem recognizedInGroup_full {d : Nat} (hd : d < 16) (hfull : ∀ w, nibble1 w = d → wordUnrecognized w ≠ true) :
    recognizedInGroup d = 4096 := by
  rw [recognizedInGroup, List.countP_eq_length.2, List.length_range]
  intro k hk
  rw [Option.isSome_iff_ne_none, ne_eq, opcodeMap_eq_none]
  exact hfull _ (nibble1_ofNat hd (List.mem_range.1 hk))

theorem recognizedInGroup_of_mem {d : Nat} (hd : d ∈ [0x1, 0x2, 0x3, 0x4, 0x6, 0x7, 0xA, 0xB, 0xC, 0xD]) :
    recognizedInGroup d = 4096 := by
  simp only [List.mem_cons, List.not_mem_nil, or_false] at hd
  exact recognizedInGroup_full (by omega) fun w hw => by rw [ne_eq, wordUnrecognized_iff]; omega

theorem recognizedInGroup_zero : recognizedInGroup 0x0 = 3 :=
  recognizedInGroup_of_rows (hi := 11) (blocks := 1) (rows := [0x000, 0x0E0, 0x0EE]) (by decide) rfl (by decide) (by decide)
    fun w hw => by simp [wordUnrecognized_iff, hw]

theorem recognizedInGroup_five : recognizedInGroup 0x5 = 256 :=
  recognizedInGroup_of_rows (hi := 3) (blocks := 256) (rows := [0x0]) (by decide) rfl (by decide) (by decide)
    fun w hw => by simp [wordUnrecognized_iff, hw, nibble4]

theorem recognizedInGroup_eight : recognizedInGroup 0x8 = 2304 :=
  recognizedInGroup_of_rows (hi := 3) (blocks := 256) (rows := [0x0, 0x1, 0x2, 0x3, 0x4, 0x5, 0x6, 0x7, 0xE])
    (by decide) rfl (by decide) (by decide) fun w hw => by simp [wordUnrecognized_iff, hw, nibble4]

theorem recognizedInGroup_nine : recognizedInGroup 0x9 = 256 :=
  recognizedInGroup_of_rows (hi := 3) (blocks := 256) (rows := [0x0]) (by decide) rfl (by decide) (by decide)
    fun w hw => by simp [wordUnrecognized_iff, hw, nibble4]

theorem recognizedInGroup_E : recognizedInGroup 0xE = 32 :=
  recognizedInGroup_of_rows (hi := 7) (blocks := 16) (rows := [0x9E, 0xA1]) (by decide) rfl (by decide) (by decide)
    fun w hw => by simp [wordUnrecognized_iff, hw]

theorem recognizedInGroup_F : recognizedInGroup 0xF = 144 :=
  recognizedInGroup_of_rows (hi := 7) (blocks := 16) (rows := [0x07, 0x0A, 0x15, 0x18, 0x1E, 0x29, 0x33, 0x55, 0x65])
    (by decide) rfl (by decide) (by decide) fun w hw => by simp [wordUnrecognized_iff, hw]

theorem map_recognizedInGroup : (List.range 16).map recognizedInGroup =
    [3, 4096, 4096, 4096, 4096, 256, 4096, 4096, 2304, 256, 4096, 4096, 4096, 4096, 32, 144] := by
  simp [List.range_succ, recognizedInGroup_of_mem, recognizedInGroup_zero, recognizedInGroup_five, recognizedInGroup_nine,
    recognizedInGroup_eight, recognizedInGroup_E, recognizedInGroup_F]

/-- Settles O5: the sixteen groups, each counted by the rows of R96 that it holds, and their sums. -/
theorem recognizedWordsAreCounted : Obligations.RecognizedWordsAreCounted := by
  refine ⟨recognizedInGroup_zero, fun d hd => recognizedInGroup_of_mem hd, recognizedInGroup_five, recognizedInGroup_nine,
    recognizedInGroup_eight, recognizedInGroup_E, recognizedInGroup_F, ?recognized, ?rejected⟩
  case recognized => rw [map_recognizedInGroup]; rfl
  case rejected =>
    have hmap : (List.range 16).map (fun d => 4096 - recognizedInGroup d) =
        ((List.range 16).map recognizedInGroup).map (4096 - ·) := by rw [List.map_map]; rfl
    rw [hmap, map_recognizedInGroup]
    rfl

end Sys2Proof.Machine
end
section
/-! PROOFS. The execute phase (60_exceptions.md sections 1 and 3): which fault an instruction raises, what a completed one has
done, and what a tick makes of it. -/

namespace Sys2Proof.Machine

/-! ### Completion and faults (R230, R234) -/

/-- The result is a next state if the check finds nothing, and the fault that it finds otherwise. -/
def decidedBy (check : Option Fault) (r : Result) : Prop :=
  (check = none → ∃ t, r = .next t) ∧ ∀ f, check = some f → r = .fault f

theorem decidedBy_none (t : State) : decidedBy none (.next t) := ⟨fun _ => ⟨t, rfl⟩, nofun⟩

theorem decidedBy_some (f : Fault) : decidedBy (some f) (.fault f) := ⟨nofun, fun _ h => by rw [Option.some.inj h]⟩

/-- The range check of a nonempty access is decided by its highest address (R66). -/
theorem decidedBy_rangeFault (ins : Instr) (s t : State) {len last : Nat} (hlast : s.i.toNat + len = last + 1) (hlen : 0 < len) :
    decidedBy (rangeFault (faultSite ins s) last) (checkRange ins s len (.next t)) := by
  obtain rfl : last = s.i.toNat + len - 1 := by omega
  by_cases h : maxAddr < s.i.toNat + len - 1
  · rw [checkRange_fail hlen h, rangeFault, if_pos h]
    exact decidedBy_some _
  · rw [checkRange_pass (.inr (Nat.not_lt.1 h)), rangeFault, if_neg h]
    exact decidedBy_none _

theorem exec_skp_of_lt {s : State} {x : Reg} (h : (s.getV x).toNat < 16) :
    exec (.skp x) s = .next (s.skipIf (s.getKey ⟨(s.getV x).toNat, h⟩)) := by
  simp [exec, execSkp, keyIndex_of_lt h]

theorem exec_skp_of_ge {s : State} {x : Reg} (h : 16 ≤ (s.getV x).toNat) :
    exec (.skp x) s = .fault (.keyIndexOutOfRange (faultSite (.skp x) s) (s.getV x)) := by
  simp [exec, execSkp, keyIndex_of_ge h, raise]

theorem exec_sknp_of_lt {s : State} {x : Reg} (h : (s.getV x).toNat < 16) :
    exec (.sknp x) s = .next (s.skipIf (!s.getKey ⟨(s.getV x).toNat, h⟩)) := by
  simp [exec, execSknp, keyIndex_of_lt h]

theorem exec_sknp_of_ge {s : State} {x : Reg} (h : 16 ≤ (s.getV x).toNat) :
    exec (.sknp x) s = .fault (.keyIndexOutOfRange (faultSite (.sknp x) s) (s.getV x)) := by
  simp [exec, execSknp, keyIndex_of_ge h, raise]

theorem exec_ldVxK_of_some {s : State} {k : Fin 16} (h : firstPressedKey s = some k) (x : Reg) :
    exec (.ldVxK x) s = .next (s.setV x (BitVec.ofNat 8 k.val)) := by
  simp [exec, execLdVxK, h]

theorem exec_ldVxK_of_none {s : State} (h : firstPressedKey s = none) (x : Reg) :
    exec (.ldVxK x) s = .next s.rewindPc := by
  simp [exec, execLdVxK, h]

theorem exec_ret_of_pop {s t : State} {a : Word} (h : s.pop = some (a, t)) : exec .ret s = .next (t.setPc a) := by
  simp [exec, execRet, h]

theorem exec_ret_empty {s : State} (h : s.sp.val = 0) : exec .ret s = .fault (.stackUnderflow (faultSite .ret s)) := by
  simp [exec, execRet, State.pop_empty h, raise]

theorem decidedBy_keyFault {i : Instr} {s : State} {b : Byte} (hpass : b.toNat < 16 → ∃ t, exec i s = .next t)
    (hfail : 16 ≤ b.toNat → exec i s = .fault (.keyIndexOutOfRange (faultSite i s) b)) :
    decidedBy (keyFault (faultSite i s) b) (exec i s) := by
  by_cases h : 15 < b.toNat
  · rw [hfail h, keyFault, if_pos h]
    exact decidedBy_some _
  · obtain ⟨t, ht⟩ := hpass (by omega)
    rw [ht, keyFault, if_neg h]
    exact decidedBy_none t

/-- An instruction's single check decides it (R234). -/
theorem exec_decidedBy (i : Instr) (s : State) : decidedBy (checkOf i (s.pc - 2) s) (exec i s) := by
  cases i with
  | call nnn =>
    by_cases h : s.sp.val = 16
    · rw [exec_call_full h, checkOf, if_pos h]
      exact decidedBy_some _
    · rw [exec_call_of_push (State.push_of_lt (by omega) s.pc), checkOf, if_neg h]
      exact decidedBy_none _
  | ret =>
    by_cases h : s.sp.val = 0
    · rw [exec_ret_empty h, checkOf, if_pos h]
      exact decidedBy_some _
    · rw [exec_ret_of_pop (State.pop_of_pos (by omega)), checkOf, if_neg h]
      exact decidedBy_none _
  | ldB x => exact decidedBy_rangeFault (.ldB x) s _ rfl (by decide)
  | storeRegs x => exact decidedBy_rangeFault (.storeRegs x) s _ rfl (by omega)
  | loadRegs x => exact decidedBy_rangeFault (.loadRegs x) s _ rfl (by omega)
  | drw x y n =>
    by_cases h : n.val = 0
    · rw [checkOf, if_pos h, exec, execDrw, checkRange_pass (.inl h)]
      exact decidedBy_none _
    · rw [checkOf, if_neg h]
      exact decidedBy_rangeFault (.drw x y n) s _ (by omega) (by omega)
  | skp x => exact decidedBy_keyFault (fun h => ⟨_, exec_skp_of_lt h⟩) exec_skp_of_ge
  | sknp x => exact decidedBy_keyFault (fun h => ⟨_, exec_sknp_of_lt h⟩) exec_sknp_of_ge
  | ldVxK x =>
    cases h : firstPressedKey s with
    | some k => rw [exec_ldVxK_of_some h]; exact decidedBy_none _
    | none => rw [exec_ldVxK_of_none h]; exact decidedBy_none _
  | _ => exact decidedBy_none _

/-- Settles O11: the check of each instruction is the one that its meaning makes. -/
theorem instructionCompletesUnlessItsCheckFails : Obligations.InstructionCompletesUnlessItsCheckFails :=
  exec_decidedBy

theorem exec_cases (i : Instr) (s : State) :
    (checkOf i (s.pc - 2) s = none ∧ ∃ t, exec i s = .next t) ∨
      ∃ f, checkOf i (s.pc - 2) s = some f ∧ exec i s = .fault f := by
  obtain ⟨hnone, hsome⟩ := exec_decidedBy i s
  cases h : checkOf i (s.pc - 2) s with
  | none => exact .inl ⟨rfl, hnone h⟩
  | some f => exact .inr ⟨f, rfl, hsome f h⟩

/-- An instruction faults exactly when its check does. -/
theorem exec_eq_fault {i : Instr} {s : State} {f : Fault} : exec i s = .fault f ↔ checkOf i (s.pc - 2) s = some f := by
  rcases exec_cases i s with ⟨hcheck, t, ht⟩ | ⟨g, hcheck, hg⟩
  · rw [hcheck, ht]
    simp
  · rw [hcheck, hg]
    simp

theorem exec_ne_refused (i : Instr) (s : State) (r : Refusal) : exec i s ≠ .refused r := by
  rcases exec_cases i s with ⟨-, t, ht⟩ | ⟨f, -, hf⟩
  · simp [ht]
  · simp [hf]

/-! ### The tick (R92 to R95) -/

theorem State.fetchWord_of_gt (s : State) {a : Nat} (h : 0xFFF < a + 1) : s.fetchWord a = none := if_pos h

theorem State.fetchWord_of_le (s : State) {a : Nat} (h : a + 1 ≤ 0xFFF) :
    s.fetchWord a = some (wordOfBytes (s.byteAt a) (s.byteAt (a + 1))) := if_neg (Nat.not_lt.2 h)

theorem tick_of_fetch_none {s : State} (h : s.fetchWord s.pc.toNat = none) : tick s = .fault (.fetchOutOfRange s.pc) := by
  simp [tick, h, raise]

theorem tick_of_gt {s : State} (h : 0xFFF < s.pc.toNat + 1) : tick s = .fault (.fetchOutOfRange s.pc) :=
  tick_of_fetch_none (s.fetchWord_of_gt h)

/-- The check of an instruction reads the registers, I and SP, and nothing else (R234). -/
theorem checkOf_congr {s t : State} (i : Instr) (a : Word) (hv : t.v = s.v) (hi : t.i = s.i) (hsp : t.sp = s.sp) :
    checkOf i a t = checkOf i a s := by
  unfold checkOf State.getV
  rw [hv, hi, hsp]

/-- After the advance of a tick the address of the instruction is the PC before it (R28, R231). -/
theorem checkOf_advancePc (i : Instr) (s : State) : checkOf i (s.advancePc.pc - 2) s.advancePc = checkOf i s.pc s := by
  rw [State.pc_advancePc, BitVec.add_sub_cancel]
  exact checkOf_congr i s.pc rfl rfl rfl

/-- Settles O10: fetch, decode and the instruction's check, in the order in which a tick makes them. -/
theorem tickFaultsInOrder : Obligations.TickFaultsInOrder := by
  refine fun s => ⟨tick_of_gt, fun w hw => ⟨fun r hr => tick_of_reject hw hr, fun i f hi hf => ?faults, fun i hi hnone => ?next⟩⟩
  case faults =>
    rw [tick_of_decode hw hi, exec_eq_fault, checkOf_advancePc, hf]
  case next =>
    rw [tick_of_decode hw hi]
    exact (exec_decidedBy i s.advancePc).1 (by rw [checkOf_advancePc, hnone])

theorem tick_ne_refused (s : State) (r : Refusal) : tick s ≠ .refused r := by
  cases hw : s.fetchWord s.pc.toNat with
  | none => rw [tick_of_fetch_none hw]; nofun
  | some w =>
    cases hi : decode w with
    | error e => rw [tick_of_reject hw hi]; nofun
    | ok i => rw [tick_of_decode hw hi]; exact exec_ne_refused i _ r

theorem transact_ne_refused (t : Transaction) (s : State) (r : Refusal) : transact t s ≠ .refused r := by
  cases t with
  | tick => exact tick_ne_refused s r
  | load bytes =>
    rcases load_cases bytes s with ⟨-, h⟩ | ⟨-, h⟩ <;> rw [transact, h] <;> nofun
  | _ => nofun

/-- Settles O57: a step is a transaction, and only a tick whose instruction is refused could be refused. -/
theorem noStepIsRefused : Obligations.NoStepIsRefused :=
  fun s => transact_ne_refused (nextTransaction s).1 (s.setSchedule (nextTransaction s).2)

/-! ### Faults repeat (R236, R237) -/

/-- Whether and how a tick faults rests on PC, the parameters, memory, the registers, I and SP. -/
theorem tick_eq_fault_congr {s t : State} {f : Fault} (hpc : t.pc = s.pc) (hcfg : t.cfg = s.cfg) (hmem : t.mem = s.mem)
    (hv : t.v = s.v) (hi : t.i = s.i) (hsp : t.sp = s.sp) (h : tick s = .fault f) : tick t = .fault f := by
  have hfetch : t.fetchWord t.pc.toNat = s.fetchWord s.pc.toNat := by
    simp only [State.fetchWord, State.byteAt, hpc, hcfg, hmem]
  cases hw : s.fetchWord s.pc.toNat with
  | none => rwa [tick_of_fetch_none (hfetch.trans hw), hpc, ← tick_of_fetch_none hw]
  | some w =>
    cases hd : decode w with
    | error e => rwa [tick_of_reject (hfetch.trans hw) hd, hpc, ← tick_of_reject hw hd]
    | ok i =>
      rw [tick_of_decode hw hd, exec_eq_fault, checkOf_advancePc] at h
      rw [tick_of_decode (hfetch.trans hw) hd, exec_eq_fault, checkOf_advancePc, hpc, checkOf_congr i s.pc hv hi hsp, h]

theorem stateAfter_of_fault {t : Transaction} {s : State} {f : Fault} (h : transact t s = .fault f) : stateAfter t s = s := by
  simp [stateAfter, h]

@[simp] theorem stateAfter_tickTimers (s : State) : stateAfter .tickTimers s = tickTimers s := rfl

@[simp] theorem stateAfter_keypress (index : Nat) (pressed : Bool) (s : State) :
    stateAfter (.keypress index pressed) s = keypress index pressed s := rfl

/-- Settles O12: neither timer and no latch is among what the fault of a tick rests on. -/
theorem faultLeavesStateAndRepeats : Obligations.FaultLeavesStateAndRepeats := by
  refine ⟨fun _ _ _ h => stateAfter_of_fault h, fun s f h => ⟨?again, ?afterTimers, fun index pressed => ?afterKeypress⟩⟩
  case again => rwa [stateAfter_of_fault (t := .tick) h]
  case afterTimers => exact tick_eq_fault_congr (s := s) rfl rfl rfl rfl rfl rfl h
  case afterKeypress =>
    rw [stateAfter_keypress]
    rcases keypress_cases index pressed s with ⟨k, -, hk⟩ | ⟨-, hk⟩ <;> rw [hk]
    · exact tick_eq_fault_congr (s := s) rfl rfl rfl rfl rfl rfl h
    · exact h

end Sys2Proof.Machine
end
section
/-! PROOFS. What a completed instruction has done: the inversion of every meaning that has a check or a branch, the frames of
the setters, and the frame of all 35 instructions (10_state.md sections 2 to 5). -/

namespace Sys2Proof.Machine

/-! ### Inversions -/

theorem exec_call_next {s t : State} {nnn : BitVec 12} (h : exec (.call nnn) s = .next t) :
    s.sp.val < 16 ∧ ∃ u, s.push s.pc = some u ∧ t = u.setPc (targetOf nnn) := by
  have hsp : s.sp.val < 16 := by
    by_contra hge
    rw [exec_call_full (by omega)] at h
    cases h
  rw [exec_call_of_push (State.push_of_lt hsp s.pc)] at h
  cases h
  exact ⟨hsp, _, State.push_of_lt hsp s.pc, rfl⟩

theorem exec_ret_next {s t : State} (h : exec .ret s = .next t) :
    ∃ hsp : 0 < s.sp.val, t = { s with sp := ⟨s.sp.val - 1, by omega⟩, pc := s.stack[s.sp.val - 1] } := by
  have hsp : 0 < s.sp.val := by
    by_contra hle
    rw [exec_ret_empty (by omega)] at h
    cases h
  rw [exec_ret_of_pop (State.pop_of_pos hsp)] at h
  cases h
  exact ⟨hsp, rfl⟩

theorem exec_ldB_next {s t : State} {x : Reg} (h : exec (.ldB x) s = .next t) :
    s.i.toNat + 2 ≤ maxAddr ∧ t = s.writeBytes s.i.toNat (bcdDigits (s.getV x)) := by
  obtain ⟨hrange, hdone⟩ := checkRange_next h
  exact ⟨by omega, (Host.Outcome.next.inj hdone).symm⟩

theorem exec_storeRegs_next {s t : State} {x : Reg} (h : exec (.storeRegs x) s = .next t) :
    s.i.toNat + x.val ≤ maxAddr ∧ t = s.writeBytes s.i.toNat (registersThrough x s) := by
  obtain ⟨hrange, hdone⟩ := checkRange_next h
  exact ⟨by omega, (Host.Outcome.next.inj hdone).symm⟩

theorem exec_loadRegs_next {s t : State} {x : Reg} (h : exec (.loadRegs x) s = .next t) :
    t = { s with v := loadedRegisters x s } := by
  obtain ⟨-, hdone⟩ := checkRange_next h
  exact (Host.Outcome.next.inj hdone).symm

/-- The canvas that DRW leaves (R191). -/
def drawnCanvas (x y : Reg) (n : Fin 16) (s : State) : Canvas :=
  drawSprite ((s.getV x).toNat % 64) ((s.getV y).toNat % 32) (spriteRows n.val s) s.fb

theorem exec_drw_eq (x y : Reg) (n : Fin 16) (s : State) : exec (.drw x y n) s = checkRange (.drw x y n) s n.val
    (.next ((s.setFb (drawnCanvas x y n s).fb).setV regF (collisionFlag (drawnCanvas x y n s).hit))) := rfl

theorem exec_drw_next {s t : State} {x y : Reg} {n : Fin 16} (h : exec (.drw x y n) s = .next t) :
    (n.val = 0 ∨ s.i.toNat + n.val - 1 ≤ maxAddr) ∧
      t = (s.setFb (drawnCanvas x y n s).fb).setV regF (collisionFlag (drawnCanvas x y n s).hit) := by
  obtain ⟨hrange, hdone⟩ := checkRange_next (exec_drw_eq x y n s ▸ h)
  exact ⟨hrange, (Host.Outcome.next.inj hdone).symm⟩

theorem exec_keySkip_next {i : Instr} {s t : State} {x : Reg} (hi : i = .skp x ∨ i = .sknp x) (h : exec i s = .next t) :
    ∃ taken, t = s.skipIf taken := by
  by_cases hk : (s.getV x).toNat < 16
  · rcases hi with rfl | rfl
    · exact ⟨_, Host.Outcome.next.inj (h.symm.trans (exec_skp_of_lt hk))⟩
    · exact ⟨_, Host.Outcome.next.inj (h.symm.trans (exec_sknp_of_lt hk))⟩
  · rcases hi with rfl | rfl <;> simp [exec_skp_of_ge, exec_sknp_of_ge, Nat.not_lt.1 hk] at h

theorem exec_ldVxK_next {s t : State} {x : Reg} (h : exec (.ldVxK x) s = .next t) : (∃ b, t = s.setV x b) ∨ t = s.rewindPc := by
  cases hk : firstPressedKey s with
  | some k =>
    rw [exec_ldVxK_of_some hk] at h
    cases h
    exact .inl ⟨_, rfl⟩
  | none =>
    rw [exec_ldVxK_of_none hk] at h
    cases h
    exact .inr rfl

/-! ### Frames of the setters -/

theorem keepsRegs.mono {rs rs' : List Reg} {s t : State} (h : keepsRegs rs s t) (hsub : rs ⊆ rs') : keepsRegs rs' s t :=
  fun r hr => h r fun hmem => hr (hsub hmem)

theorem keepsParts.mono {ps ps' : List Part} {s t : State} (h : keepsParts ps s t) (hsub : ps ⊆ ps') : keepsParts ps' s t :=
  fun p hp => h p fun hmem => hp (hsub hmem)

theorem keepsParts_nil_of_v (s : State) (v : Vector Byte 16) : keepsParts [] s { s with v := v } :=
  fun p _ => by cases p <;> simp [Part.kept]

theorem keepsMemory_of_v (s : State) (v : Vector Byte 16) : keepsMemory s { s with v := v } := fun _ => rfl

theorem changesOnlyParts_nil (s : State) : changesOnlyParts [] s s :=
  ⟨fun _ _ => rfl, keepsParts_nil_of_v s s.v, fun _ => rfl⟩

theorem changesOnlyParts_setPc (s : State) (a : Word) : changesOnlyParts [.counter] s (s.setPc a) :=
  (changesOnlyParts_nil s).setPc a

theorem changesOnlyParts_skipIf (s : State) (taken : Bool) : changesOnlyParts [.counter] s (s.skipIf taken) := by
  rw [State.skipIf_eq]
  exact changesOnlyParts_setPc s _

theorem changesOnlyParts_setI (s : State) (a : Word) : changesOnlyParts [.index] s (s.setI a) :=
  ⟨fun _ _ => rfl, fun p hp => by cases p <;> simp_all [Part.kept], fun _ => rfl⟩

theorem changesOnlyParts_setDt (s : State) (b : Byte) : changesOnlyParts [.delayTimer] s (s.setDt b) :=
  ⟨fun _ _ => rfl, fun p hp => by cases p <;> simp_all [Part.kept], fun _ => rfl⟩

theorem changesOnlyParts_setSt (s : State) (b : Byte) : changesOnlyParts [.soundTimer] s (s.setSt b) :=
  ⟨fun _ _ => rfl, fun p hp => by cases p <;> simp_all [Part.kept], fun _ => rfl⟩

theorem changesOnlyParts_setKey (s : State) (k : Fin 16) (p : Bool) : changesOnlyParts [.keypad] s (s.setKey k p) :=
  ⟨fun _ _ => rfl, fun p hp => by cases p <;> simp_all [Part.kept], fun _ => rfl⟩

theorem changesOnlyParts_pop (s : State) (n : Fin 17) (a : Word) :
    changesOnlyParts [.counter, .callStack] s { s with sp := n, pc := a } :=
  ⟨fun _ _ => rfl, fun p hp => by cases p <;> simp_all [Part.kept], fun _ => rfl⟩

theorem keepsParts_setDraws_setV (s : State) (x : Reg) (b : Byte) (n : Nat) :
    keepsParts [.drawCount] s ((s.setV x b).setDraws n) :=
  fun p hp => by cases p <;> simp_all [Part.kept]

theorem keepsParts_setFb_setV (s : State) (fb : Framebuffer) (x : Reg) (b : Byte) :
    keepsParts [.display] s ((s.setFb fb).setV x b) :=
  fun p hp => by cases p <;> simp_all [Part.kept]

theorem keepsParts_writeBytes (s : State) (a : Nat) (bs : List Byte) : keepsParts [] s (s.writeBytes a bs) := by
  rw [State.writeBytes_eq]
  exact fun p _ => by cases p <;> simp [Part.kept]

theorem keepsMemoryOutside_writeBytes (s : State) (a : Nat) {bs : List Byte} {len : Nat} (hlen : bs.length = len) :
    keepsMemoryOutside a len s (s.writeBytes a bs) :=
  fun c hc => State.byteAt_writeBytes_outside s a bs c (hlen ▸ hc)

theorem changesOnlyRegs_writeResultAndFlag (s : State) (x : Reg) (r f : Byte) :
    changesOnlyRegs [x, regF] s (writeResultAndFlag x r f s) := by
  refine ⟨fun k hk => ?registers, ?parts, ?memory⟩
  case registers =>
    have hx : k ≠ x := List.ne_of_not_mem_cons hk
    have hF : k ≠ regF := List.ne_of_not_mem_cons (List.not_mem_of_not_mem_cons hk)
    simp [getV_writeResultAndFlag, hx, hF]
  case parts => rw [writeResultAndFlag_eq]; exact keepsParts_nil_of_v s _
  case memory => rw [writeResultAndFlag_eq]; exact fun _ => rfl

theorem getV_loadedRegisters (x k : Reg) (s : State) :
    ({ s with v := loadedRegisters x s } : State).getV k = if k ≤ x then s.byteAt (s.i.toNat + k.val) else s.getV k := by
  simp [State.getV, loadedRegisters]

/-! ### The frame of an instruction -/

/-- Only what the spec lists for the instruction differs: registers (R23, R24), parts, and bytes from I upward (R176). -/
def writesWithin (i : Instr) (s t : State) : Prop :=
  keepsRegs (registersWritten i) s t ∧ keepsParts (partsWritten i) s t ∧ keepsMemoryOutside s.i.toNat (bytesWritten i) s t

theorem writesWithin_of_changesOnlyRegs {i : Instr} {s t : State} {rs : List Reg} (h : changesOnlyRegs rs s t)
    (hrs : rs ⊆ registersWritten i) : writesWithin i s t := by
  obtain ⟨hregs, hparts, hmem⟩ := h
  exact ⟨hregs.mono hrs, hparts.mono (List.nil_subset _), fun a _ => hmem a⟩

theorem writesWithin_of_changesOnlyParts {i : Instr} {s t : State} {ps : List Part} (h : changesOnlyParts ps s t)
    (hps : ps ⊆ partsWritten i) : writesWithin i s t := by
  obtain ⟨hregs, hparts, hmem⟩ := h
  exact ⟨hregs.mono (List.nil_subset _), hparts.mono hps, fun a _ => hmem a⟩

/-- A completed instruction is a few setters, each of which writes what the spec lists. -/
theorem exec_writesWithin {i : Instr} {s t : State} (h : exec i s = .next t) : writesWithin i s t := by
  cases i with
  | nop => cases h; exact writesWithin_of_changesOnlyParts (changesOnlyParts_nil s) (List.nil_subset _)
  | call nnn =>
    obtain ⟨hsp, u, hpush, rfl⟩ := exec_call_next h
    obtain ⟨u', hpush', -, -, hframe⟩ := State.push_spec hsp s.pc
    cases hpush.symm.trans hpush'
    exact writesWithin_of_changesOnlyParts (hframe.setPc _) (List.Subset.refl _)
  | ret =>
    obtain ⟨hsp, rfl⟩ := exec_ret_next h
    exact writesWithin_of_changesOnlyParts (changesOnlyParts_pop s _ _) (List.Subset.refl _)
  | jp | jpV0 => cases h; exact writesWithin_of_changesOnlyParts (changesOnlyParts_setPc s _) (List.Subset.refl _)
  | seImm | sneImm | seReg | sneReg =>
    cases h
    exact writesWithin_of_changesOnlyParts (changesOnlyParts_skipIf s _) (List.Subset.refl _)
  | skp =>
    obtain ⟨taken, rfl⟩ := exec_keySkip_next (.inl rfl) h
    exact writesWithin_of_changesOnlyParts (changesOnlyParts_skipIf s _) (List.Subset.refl _)
  | sknp =>
    obtain ⟨taken, rfl⟩ := exec_keySkip_next (.inr rfl) h
    exact writesWithin_of_changesOnlyParts (changesOnlyParts_skipIf s _) (List.Subset.refl _)
  | ldVxK x =>
    rcases exec_ldVxK_next h with ⟨b, rfl⟩ | rfl
    · exact writesWithin_of_changesOnlyRegs (changesOnlyRegs_setV s x b) (List.Subset.refl _)
    · exact writesWithin_of_changesOnlyParts (changesOnlyParts_setPc s _) (List.Subset.refl _)
  | ldImm | addImm | ldReg | orReg | andReg | xorReg | ldVxDt =>
    cases h
    exact writesWithin_of_changesOnlyRegs (changesOnlyRegs_setV s _ _) (List.Subset.refl _)
  | addReg | subReg | shr | subnReg | shl =>
    cases h
    exact writesWithin_of_changesOnlyRegs (changesOnlyRegs_writeResultAndFlag s _ _ _) (List.Subset.refl _)
  | rnd x nn =>
    cases h
    obtain ⟨hregs, -, -⟩ := changesOnlyRegs_setV s x (drawRand s &&& nn)
    exact ⟨hregs, keepsParts_setDraws_setV s _ _ _, fun _ _ => rfl⟩
  | ldI | addI | ldF => cases h; exact writesWithin_of_changesOnlyParts (changesOnlyParts_setI s _) (List.Subset.refl _)
  | ldDtVx => cases h; exact writesWithin_of_changesOnlyParts (changesOnlyParts_setDt s _) (List.Subset.refl _)
  | ldStVx => cases h; exact writesWithin_of_changesOnlyParts (changesOnlyParts_setSt s _) (List.Subset.refl _)
  | cls => cases h; exact writesWithin_of_changesOnlyParts (changesOnlyParts_setFb s _) (List.Subset.refl _)
  | drw =>
    obtain ⟨-, rfl⟩ := exec_drw_next h
    obtain ⟨hregs, -, -⟩ := changesOnlyRegs_setV s regF (collisionFlag (drawnCanvas _ _ _ s).hit)
    exact ⟨hregs, keepsParts_setFb_setV s _ _ _, fun _ _ => rfl⟩
  | loadRegs x =>
    obtain rfl := exec_loadRegs_next h
    refine ⟨fun k hk => ?_, keepsParts_nil_of_v s _, fun a _ => keepsMemory_of_v s _ a⟩
    have hgt : ¬k ≤ x := fun hle => hk (by simpa [registersWritten] using hle)
    rw [getV_loadedRegisters, if_neg hgt]
  | ldB x =>
    obtain ⟨-, rfl⟩ := exec_ldB_next h
    exact ⟨fun r _ => State.getV_writeBytes .., keepsParts_writeBytes s _ _, keepsMemoryOutside_writeBytes s _ rfl⟩
  | storeRegs x =>
    obtain ⟨-, rfl⟩ := exec_storeRegs_next h
    exact ⟨fun r _ => State.getV_writeBytes .., keepsParts_writeBytes s _ _,
      keepsMemoryOutside_writeBytes s _ (length_registersThrough x s)⟩

/-- Settles O13: the frame of every instruction is that of its setters. -/
theorem instructionWritesOnlyWhatTheSpecLists : Obligations.InstructionWritesOnlyWhatTheSpecLists :=
  fun _ _ _ h => exec_writesWithin h

/-- A part that the spec does not list for an instruction is kept by it. -/
theorem exec_keeps {i : Instr} {s t : State} (h : exec i s = .next t) {p : Part} (hp : p ∉ partsWritten i) : p.kept s t := by
  obtain ⟨-, hparts, -⟩ := exec_writesWithin h
  exact hparts p hp

theorem keypad_notMem_partsWritten (i : Instr) : Part.keypad ∉ partsWritten i := by
  cases i <;> simp [partsWritten]

theorem parameters_notMem_partsWritten (i : Instr) : Part.parameters ∉ partsWritten i := by
  cases i <;> simp [partsWritten]

theorem tick_key_cfg {s t : State} (h : tick s = .next t) : t.key = s.key ∧ t.cfg = s.cfg := by
  obtain ⟨w, i, -, -, hexec⟩ := tick_next h
  exact ⟨exec_keeps hexec (keypad_notMem_partsWritten i), exec_keeps hexec (parameters_notMem_partsWritten i)⟩

@[simp] theorem State.key_writeBytes (s : State) (a : Nat) (bs : List Byte) : (s.writeBytes a bs).key = s.key :=
  keepsParts_writeBytes s a bs .keypad List.not_mem_nil

/-- Settles O14: no instruction writes a latch or the parameters, and of the other transactions only `keypress` does. -/
theorem latchesChangeOnlyByKeypress : Obligations.LatchesChangeOnlyByKeypress := by
  intro t s s' h
  cases t with
  | tick =>
    obtain ⟨hkey, hcfg⟩ := tick_key_cfg h
    exact ⟨hcfg, fun _ => hkey⟩
  | load bytes =>
    rcases load_cases bytes s with ⟨-, hload⟩ | ⟨-, hload⟩ <;> rw [transact, hload] at h <;> cases h
    exact ⟨State.writeBytes_cfg .., fun _ => State.key_writeBytes ..⟩
  | keypress index pressed =>
    cases h
    refine ⟨?_, fun hno => absurd rfl (hno index pressed)⟩
    rcases keypress_cases index pressed s with ⟨k, -, hk⟩ | ⟨-, hk⟩ <;> rw [hk]
    rfl
  | tickTimers | readFramebuffer | readSoundActive => cases h; exact ⟨rfl, fun _ => rfl⟩

end Sys2Proof.Machine
end
section
/-! PROOFS. What no instruction reads: the sound timer (R32) and the stack slots at or above SP (R30, R36). Two states that
differ only there take the same step. -/

namespace Sys2Proof.Machine

/-! ### Results mapped and compared -/

/-- The result with its next state changed. -/
def mapNext (g : State → State) : Result → Result
  | .next s => .next (g s)
  | .fault f => .fault f
  | .refused r => .refused r

theorem sameOutcome_mapNext {rel : State → State → Prop} {g : State → State} {r : Result}
    (h : ∀ s, r = .next s → rel s (g s)) : sameOutcome rel r (mapNext g r) := by
  cases r with
  | next s => exact h s rfl
  | fault | refused => rfl

/-- A range check reads I, and PC for the fault that it may raise. -/
theorem checkRange_mapNext {g : State → State} {ins : Instr} {s : State} {len : Nat} {done : Result} (hi : (g s).i = s.i)
    (hpc : (g s).pc = s.pc) : checkRange ins (g s) len (mapNext g done) = mapNext g (checkRange ins s len done) := by
  unfold checkRange faultSite
  rw [hi, hpc]
  split <;> rfl

/-! ### The stack and the sound timer replaced -/

/-- The state with its stack slots and its sound timer replaced. -/
def State.setUnread (s : State) (σ : Vector Word 16) (b : Byte) : State := { s with stack := σ, st := b }

theorem State.writeByte_setUnread (s : State) (σ : Vector Word 16) (b : Byte) (a : Nat) (c : Byte) :
    (s.setUnread σ b).writeByte a c = (s.writeByte a c).setUnread σ b := by
  unfold State.writeByte
  split <;> rfl

theorem State.writeBytes_setUnread (s : State) (σ : Vector Word 16) (b : Byte) (a : Nat) (cs : List Byte) :
    (s.setUnread σ b).writeBytes a cs = (s.writeBytes a cs).setUnread σ b := by
  induction cs generalizing s a with
  | nil => rfl
  | cons c cs ih => rw [State.writeBytes, State.writeByte_setUnread, ih, State.writeBytes]

theorem State.skipIf_setUnread (s : State) (σ : Vector Word 16) (b : Byte) (taken : Bool) :
    (s.setUnread σ b).skipIf taken = (s.skipIf taken).setUnread σ b := by
  cases taken <;> rfl

theorem writeResultAndFlag_setUnread (s : State) (σ : Vector Word 16) (b : Byte) (x : Reg) (r f : Byte) :
    writeResultAndFlag x r f (s.setUnread σ b) = (writeResultAndFlag x r f s).setUnread σ b := by
  unfold writeResultAndFlag State.setUnread
  split <;> rfl

/-- Beside CALL, RET and LD ST, an instruction commutes with replacing the stack slots and the sound timer: it reads neither. -/
theorem exec_setUnread {i : Instr} (hstack : .callStack ∉ partsWritten i) (hsound : .soundTimer ∉ partsWritten i) (s : State)
    (σ : Vector Word 16) (b : Byte) : exec i (s.setUnread σ b) = mapNext (·.setUnread σ b) (exec i s) := by
  cases i with
  | call | ret => exact absurd (List.mem_cons_of_mem _ List.mem_cons_self) hstack
  | ldStVx => exact absurd List.mem_cons_self hsound
  | seImm | sneImm | seReg | sneReg => exact congrArg Host.Outcome.next (s.skipIf_setUnread σ b _)
  | addReg | subReg | shr | subnReg | shl => exact congrArg Host.Outcome.next (writeResultAndFlag_setUnread s σ b _ _ _)
  | skp x =>
    by_cases h : (s.getV x).toNat < 16
    · rw [exec_skp_of_lt h, exec_skp_of_lt (s := s.setUnread σ b) h, mapNext, ← State.skipIf_setUnread]
      rfl
    · rw [exec_skp_of_ge (Nat.not_lt.1 h), exec_skp_of_ge (s := s.setUnread σ b) (Nat.not_lt.1 h)]
      rfl
  | sknp x =>
    by_cases h : (s.getV x).toNat < 16
    · rw [exec_sknp_of_lt h, exec_sknp_of_lt (s := s.setUnread σ b) h, mapNext, ← State.skipIf_setUnread]
      rfl
    · rw [exec_sknp_of_ge (Nat.not_lt.1 h), exec_sknp_of_ge (s := s.setUnread σ b) (Nat.not_lt.1 h)]
      rfl
  | ldVxK x =>
    have hkeys : firstPressedKey (s.setUnread σ b) = firstPressedKey s := rfl
    cases h : firstPressedKey s with
    | some k => rw [exec_ldVxK_of_some h, exec_ldVxK_of_some (hkeys.trans h)]; rfl
    | none => rw [exec_ldVxK_of_none h, exec_ldVxK_of_none (hkeys.trans h)]; rfl
  | drw | loadRegs =>
    simp only [exec, execDrw, execLoadRegs]
    rw [← checkRange_mapNext (g := (·.setUnread σ b)) rfl rfl]
    rfl
  | ldB | storeRegs =>
    simp only [exec, execLdB, execStoreRegs]
    rw [← checkRange_mapNext (g := (·.setUnread σ b)) rfl rfl, mapNext, ← State.writeBytes_setUnread]
    rfl
  | _ => rfl

/-- Whatever the stack slots and the sound timer hold, such an instruction does the same to everything else, and leaves them. -/
theorem exec_sameOutcome_setUnread {i : Instr} (hstack : .callStack ∉ partsWritten i) (hsound : .soundTimer ∉ partsWritten i)
    (s : State) (σ : Vector Word 16) (b : Byte) :
    sameOutcome (fun t t' => t' = t.setUnread σ b ∧ t.sp = s.sp ∧ t.stack = s.stack ∧ t.st = s.st)
      (exec i s) (exec i (s.setUnread σ b)) := by
  rw [exec_setUnread hstack hsound]
  refine sameOutcome_mapNext fun t ht => ?_
  obtain ⟨hsp, hslots⟩ := exec_keeps ht hstack
  exact ⟨rfl, hsp, hslots, exec_keeps ht hsound⟩

theorem sameOutcome.mono {rel rel' : State → State → Prop} {r r' : Result} (h : sameOutcome rel r r')
    (himp : ∀ s t, rel s t → rel' s t) : sameOutcome rel' r r' := by
  cases r <;> cases r' <;> simp_all [sameOutcome]

/-- Settles O15: CALL and RET read PC, SP and the stack; LD ST overwrites the sound timer; every other instruction commutes with
replacing it. -/
theorem noInstructionReadsTheSoundTimer : Obligations.NoInstructionReadsTheSoundTimer := by
  intro i s b
  cases i with
  | call nnn =>
    by_cases h : s.sp.val = 16
    · rw [exec_call_full h, exec_call_full (s := s.setSt b) h]
      rfl
    · have hlt : s.sp.val < 16 := by omega
      rw [exec_call_of_push (State.push_of_lt hlt _), exec_call_of_push (State.push_of_lt (s := s.setSt b) hlt _)]
      exact ⟨rfl, fun _ => rfl, nofun⟩
  | ret =>
    by_cases h : s.sp.val = 0
    · rw [exec_ret_empty h, exec_ret_empty (s := s.setSt b) h]
      rfl
    · have hpos : 0 < s.sp.val := by omega
      rw [exec_ret_of_pop (State.pop_of_pos hpos), exec_ret_of_pop (State.pop_of_pos (s := s.setSt b) hpos)]
      exact ⟨rfl, fun _ => rfl, nofun⟩
  | ldStVx x => exact ⟨rfl, fun hne => absurd rfl (hne x), fun _ => rfl⟩
  | _ =>
    refine (exec_sameOutcome_setUnread (by simp [partsWritten]) (by simp [partsWritten]) s s.stack b).mono fun t t' h => ?_
    obtain ⟨rfl, -, hslots, -⟩ := h
    exact ⟨by rw [← hslots]; rfl, fun _ => rfl, nofun⟩

/-! ### Stale stack slots -/

theorem sameButStaleSlots_iff {s t : State} : sameButStaleSlots s t ↔
    ∃ σ : Vector Word 16, t = { s with stack := σ } ∧ ∀ k : Fin 16, k.val < s.sp.val → σ[k.val] = s.stack[k.val] :=
  ⟨fun ⟨heq, hslots⟩ => ⟨t.stack, heq, hslots⟩, fun ⟨_, heq, hslots⟩ => by subst heq; exact ⟨rfl, hslots⟩⟩

/-- Only CALL and RET read the stack: RET a slot below SP, CALL none, and it makes the slot at SP the same in both states. -/
theorem exec_sameButStaleSlots {s t : State} (h : sameButStaleSlots s t) (i : Instr) :
    sameOutcome sameButStaleSlots (exec i s) (exec i t) := by
  obtain ⟨σ, rfl, hslots⟩ := sameButStaleSlots_iff.1 h
  cases i with
  | call nnn =>
    by_cases hsp : s.sp.val = 16
    · rw [exec_call_full hsp, exec_call_full (s := { s with stack := σ }) hsp]
      rfl
    · have hlt : s.sp.val < 16 := by omega
      rw [exec_call_of_push (State.push_of_lt hlt _), exec_call_of_push (State.push_of_lt (s := { s with stack := σ }) hlt _)]
      refine sameButStaleSlots_iff.2 ⟨σ.set s.sp.val s.pc, rfl, fun k hk => ?_⟩
      simp only [State.stack_setPc, Vector.getElem_set]
      split
      · rfl
      · exact hslots k (by simp only [State.sp_setPc] at hk; omega)
  | ret =>
    by_cases hsp : s.sp.val = 0
    · rw [exec_ret_empty hsp, exec_ret_empty (s := { s with stack := σ }) hsp]
      rfl
    · have hpos : 0 < s.sp.val := by omega
      have htop : σ[s.sp.val - 1] = s.stack[s.sp.val - 1] := hslots ⟨s.sp.val - 1, by omega⟩ (by simp only; omega)
      rw [exec_ret_of_pop (State.pop_of_pos hpos), exec_ret_of_pop (State.pop_of_pos (s := { s with stack := σ }) hpos)]
      refine sameButStaleSlots_iff.2 ⟨σ, by simp only [htop]; rfl, fun k hk => hslots k ?_⟩
      simp only [State.sp_setPc] at hk
      omega
  | ldStVx x => exact sameButStaleSlots_iff.2 ⟨σ, rfl, hslots⟩
  | _ =>
    refine (exec_sameOutcome_setUnread (by simp [partsWritten]) (by simp [partsWritten]) s σ s.st).mono fun t t' h => ?_
    obtain ⟨rfl, hsp, hstack, hst⟩ := h
    exact sameButStaleSlots_iff.2 ⟨σ, by rw [← hst]; rfl, by rw [hsp, hstack]; exact hslots⟩

theorem tick_sameButStaleSlots {s t : State} (h : sameButStaleSlots s t) :
    sameOutcome sameButStaleSlots (tick s) (tick t) := by
  obtain ⟨σ, rfl, hslots⟩ := sameButStaleSlots_iff.1 h
  have hfetch : State.fetchWord { s with stack := σ } s.pc.toNat = s.fetchWord s.pc.toNat := rfl
  cases hw : s.fetchWord s.pc.toNat with
  | none => rw [tick_of_fetch_none hw, tick_of_fetch_none (hfetch.trans hw)]; rfl
  | some w =>
    cases hi : decode w with
    | error r => rw [tick_of_reject hw hi, tick_of_reject (hfetch.trans hw) hi]; rfl
    | ok i =>
      rw [tick_of_decode hw hi, tick_of_decode (hfetch.trans hw) hi]
      exact exec_sameButStaleSlots (s := s.advancePc) (sameButStaleSlots_iff.2 ⟨σ, rfl, hslots⟩) i

theorem load_sameButStaleSlots {s t : State} (h : sameButStaleSlots s t) (bytes : List Byte) :
    sameOutcome sameButStaleSlots (load bytes s) (load bytes t) := by
  obtain ⟨σ, rfl, hslots⟩ := sameButStaleSlots_iff.1 h
  unfold load
  split
  · rfl
  · refine sameButStaleSlots_iff.2 ⟨σ, ?_, by simpa using hslots⟩
    have hst : (s.writeBytes loadOrigin bytes).st = s.st := keepsParts_writeBytes s _ _ .soundTimer List.not_mem_nil
    refine (s.writeBytes_setUnread σ s.st loadOrigin bytes).trans ?_
    rw [← hst]
    rfl

theorem transact_sameButStaleSlots {s t : State} (h : sameButStaleSlots s t) (tr : Transaction) :
    sameOutcome sameButStaleSlots (transact tr s) (transact tr t) := by
  cases tr with
  | tick => exact tick_sameButStaleSlots h
  | load bytes => exact load_sameButStaleSlots h bytes
  | readFramebuffer | readSoundActive => exact h
  | tickTimers =>
    obtain ⟨σ, rfl, hslots⟩ := sameButStaleSlots_iff.1 h
    exact sameButStaleSlots_iff.2 ⟨σ, rfl, hslots⟩
  | keypress index pressed =>
    obtain ⟨σ, rfl, hslots⟩ := sameButStaleSlots_iff.1 h
    refine sameButStaleSlots_iff.2 ⟨σ, ?_, ?_⟩ <;> unfold keypress <;> split
    · rfl
    · rfl
    · exact hslots
    · exact hslots

/-- Settles O16: the schedule is the same in both states, so the transaction is, and each transaction keeps the relation. -/
theorem staleStackSlotsAreUnobservable : Obligations.StaleStackSlotsAreUnobservable := by
  intro s t h
  obtain ⟨σ, rfl, hslots⟩ := sameButStaleSlots_iff.1 h
  exact transact_sameButStaleSlots (s := s.setSchedule (nextTransaction s).2) (sameButStaleSlots_iff.2 ⟨σ, rfl, hslots⟩) _

end Sys2Proof.Machine
end
section
/-! PROOFS. The invariants (10_state.md section 4, 20_memory.md section 1): the canonical form of memory, and the bounds of PC and
of the return addresses. -/

namespace Sys2Proof.Machine

/-! ### Memory stays canonical -/

theorem State.mem_skipIf (s : State) (taken : Bool) : (s.skipIf taken).mem = s.mem := by rw [State.skipIf_eq]; rfl

theorem State.writeResultAndFlag_mem (s : State) (x : Reg) (r f : Byte) : (writeResultAndFlag x r f s).mem = s.mem := by
  rw [writeResultAndFlag_eq]

/-- An instruction leaves memory as it stands, or writes bytes through `writeBytes`. -/
theorem exec_mem {i : Instr} {s t : State} (h : exec i s = .next t) : t.mem = s.mem ∨ ∃ a bs, t = s.writeBytes a bs := by
  cases i with
  | ldB => exact .inr ⟨_, _, (exec_ldB_next h).2⟩
  | storeRegs => exact .inr ⟨_, _, (exec_storeRegs_next h).2⟩
  | loadRegs => obtain rfl := exec_loadRegs_next h; exact .inl rfl
  | drw => obtain ⟨-, rfl⟩ := exec_drw_next h; exact .inl rfl
  | ret => obtain ⟨-, rfl⟩ := exec_ret_next h; exact .inl rfl
  | call =>
    obtain ⟨hsp, u, hpush, rfl⟩ := exec_call_next h
    rw [State.push_of_lt hsp] at hpush
    cases hpush
    exact .inl rfl
  | skp => obtain ⟨taken, rfl⟩ := exec_keySkip_next (.inl rfl) h; exact .inl (s.mem_skipIf taken)
  | sknp => obtain ⟨taken, rfl⟩ := exec_keySkip_next (.inr rfl) h; exact .inl (s.mem_skipIf taken)
  | ldVxK => rcases exec_ldVxK_next h with ⟨b, rfl⟩ | rfl <;> exact .inl rfl
  | seImm | sneImm | seReg | sneReg => cases h; exact .inl (s.mem_skipIf _)
  | addReg | subReg | shr | subnReg | shl => cases h; exact .inl (s.writeResultAndFlag_mem _ _ _)
  | _ => cases h; exact .inl rfl

theorem memoryCanonical_of_eq {s t : State} (hmem : t.mem = s.mem) (hcfg : t.cfg = s.cfg) (h : MemoryCanonical s) :
    MemoryCanonical t := by
  rwa [MemoryCanonical, hmem, hcfg]

theorem memoryCanonical_writeBytes {s : State} (h : MemoryCanonical s) (a : Nat) (bs : List Byte) :
    MemoryCanonical (s.writeBytes a bs) := by
  rw [MemoryCanonical, State.writeBytes_cfg]
  exact State.writeBytes_wf h a bs

theorem tick_memoryCanonical {s t : State} (hs : MemoryCanonical s) (h : tick s = .next t) : MemoryCanonical t := by
  obtain ⟨-, hcfg⟩ := tick_key_cfg h
  obtain ⟨w, i, -, -, hexec⟩ := tick_next h
  rcases exec_mem hexec with hmem | ⟨a, bs, rfl⟩
  · exact memoryCanonical_of_eq hmem hcfg hs
  · exact memoryCanonical_writeBytes (s := s.advancePc) hs a bs

/-- Settles O54: a tick and a load write memory through `writeBytes` only, and the other transactions leave it. -/
theorem everyStepKeepsMemoryCanonical : Obligations.EveryStepKeepsMemoryCanonical := by
  intro s s' hs h
  obtain ⟨rest, h | ⟨bytes, -, rfl⟩ | rfl | ⟨k, p, rfl⟩ | rfl⟩ := step_next h
  · exact tick_memoryCanonical (s := s.setSchedule rest) hs h
  · exact memoryCanonical_writeBytes (s := s.setSchedule rest) hs loadOrigin bytes
  · exact hs
  · exact hs
  · exact hs

/-! ### The canonical form is unique -/

/-- The head of a canonical memory does not read as unlisted, so a memory that reads the same there lists that address or a lower
one. -/
theorem Memory.not_all_above_of_read_eq {font : Vector Byte 80} {k : Nat} {b : Byte} {m n : Memory}
    (hm : Memory.wf font ((k, b) :: m)) (hread : Memory.read font ((k, b) :: m) k = Memory.read font n k) :
    ¬∀ d ∈ n, k < d.1 := by
  intro habove
  have hb : b ≠ Memory.unlisted font k := (hm.2 _ List.mem_cons_self).2
  rw [Memory.read_below_eq_unlisted font n k habove, Memory.read, if_pos rfl] at hread
  exact hb hread

theorem Memory.all_above_of_lt {font : Vector Byte 80} {k k' : Nat} {b : Byte} {n : Memory}
    (hn : Memory.wf font ((k', b) :: n)) (hlt : k < k') : ∀ d ∈ (k', b) :: n, k < d.1 := by
  obtain ⟨-, habove⟩ := Memory.wf_tail font hn
  intro d hd
  rcases List.mem_cons.1 hd with rfl | hd
  · exact hlt
  · exact hlt.trans (habove d hd)

/-- Canonical memories that read the same are the same list: both heads are the lowest address that reads otherwise than
unlisted, with the byte read there, and the tails read the same. -/
theorem Memory.eq_of_read_eq {font : Vector Byte 80} : ∀ {m n : Memory}, Memory.wf font m → Memory.wf font n →
    (∀ a, Memory.read font m a = Memory.read font n a) → m = n
  | [], [], _, _, _ => rfl
  | [], (k, b) :: n, _, hn, hread => absurd (by simp) (Memory.not_all_above_of_read_eq hn (hread k).symm)
  | (k, b) :: m, [], hm, _, hread => absurd (by simp) (Memory.not_all_above_of_read_eq hm (hread k))
  | (k, b) :: m, (k', b') :: n, hm, hn, hread => by
    rcases Nat.lt_trichotomy k k' with hlt | rfl | hgt
    · exact absurd (Memory.all_above_of_lt hn hlt) (Memory.not_all_above_of_read_eq hm (hread k))
    · have hb : b = b' := by simpa [Memory.read] using hread k
      obtain ⟨hm', hmabove⟩ := Memory.wf_tail font hm
      obtain ⟨hn', hnabove⟩ := Memory.wf_tail font hn
      have htail : m = n := Memory.eq_of_read_eq hm' hn' fun a => by
        by_cases ha : k = a
        · rw [← ha, Memory.read_below_eq_unlisted font m k hmabove, Memory.read_below_eq_unlisted font n k hnabove]
        · simpa [Memory.read, ha] using hread a
      rw [hb, htail]
    · exact absurd (Memory.all_above_of_lt hm hgt) (Memory.not_all_above_of_read_eq hn (hread k').symm)

/-- Settles O55: by induction on both lists. -/
theorem canonicalMemoryIsUnique : Obligations.CanonicalMemoryIsUnique :=
  fun _ _ _ hm hn hread => Memory.eq_of_read_eq hm hn hread

/-! ### PC and the return addresses stay bounded -/

/-- Every return address on the stack is at most 0x1000. -/
def SlotsBounded (s : State) : Prop := ∀ k : Fin 16, k.val < s.sp.val → (s.stack[k.val]).toNat ≤ 0x1000

theorem SlotsBounded.of_eq {s t : State} (h : SlotsBounded s) (hcalls : Part.callStack.kept s t) : SlotsBounded t := by
  obtain ⟨hsp, hstack⟩ := hcalls
  intro k hk
  rw [hstack]
  exact h k (hsp ▸ hk)

theorem counterBounded_setPc {s : State} {a : Word} (ha : a.toNat ≤ 0x10FE) (h : SlotsBounded s) :
    CounterBounded (s.setPc a) := ⟨ha, h⟩

/-- A skip from an advanced PC (R120). -/
theorem counterBounded_skipIf {s : State} (hpc : s.pc.toNat ≤ 0x1000) (h : SlotsBounded s) (taken : Bool) :
    CounterBounded (s.skipIf taken) := by
  rw [State.skipIf_eq]
  refine counterBounded_setPc ?_ h
  split
  · rw [BitVec.toNat_add_of_lt (by simp; omega)]
    simp
    omega
  · omega

theorem wideByte_toNat (b : Byte) : (wideByte b).toNat = b.toNat := BitVec.toNat_setWidth_of_le (by decide)

/-- The highest jump target is 0xFFF + 0xFF (R27, R129). -/
theorem targetOf_add_wideByte_toNat (nnn : BitVec 12) (b : Byte) :
    (targetOf nnn + wideByte b).toNat = nnn.toNat + b.toNat := by
  have hn := nnn.isLt
  have hb := b.isLt
  rw [BitVec.toNat_add, targetOf_toNat, wideByte_toNat]
  omega

/-- An instruction that runs from an advanced PC at most 0x1000 keeps both bounds: a call pushes that PC, and every target is at
most 0x10FE. -/
theorem exec_counterBounded {i : Instr} {s t : State} (hlow : 2 ≤ s.pc.toNat) (hpc : s.pc.toNat ≤ 0x1000)
    (hslots : SlotsBounded s) (h : exec i s = .next t) : CounterBounded t := by
  cases i with
  | call nnn =>
    obtain ⟨hsp, u, hpush, rfl⟩ := exec_call_next h
    obtain ⟨u', hpush', husp, hustack, -⟩ := State.push_spec hsp s.pc
    cases hpush.symm.trans hpush'
    have hnnn := nnn.isLt
    refine counterBounded_setPc (by rw [targetOf_toNat]; omega) fun k hk => ?_
    rw [hustack k]
    split
    · exact hpc
    · exact hslots k (by omega)
  | ret =>
    obtain ⟨hsp, rfl⟩ := exec_ret_next h
    have htop : (s.stack[s.sp.val - 1]).toNat ≤ 0x1000 := hslots ⟨s.sp.val - 1, by omega⟩ (by simp only; omega)
    exact ⟨htop.trans (by decide), fun k hk => hslots k (by simp only at hk; omega)⟩
  | jp nnn =>
    cases h
    have hnnn := nnn.isLt
    exact counterBounded_setPc (by rw [targetOf_toNat]; omega) hslots
  | jpV0 nnn =>
    cases h
    have hnnn := nnn.isLt
    have hv := (s.getV reg0).isLt
    exact counterBounded_setPc (by rw [targetOf_add_wideByte_toNat]; omega) hslots
  | seImm | sneImm | seReg | sneReg => cases h; exact counterBounded_skipIf hpc hslots _
  | skp => obtain ⟨taken, rfl⟩ := exec_keySkip_next (.inl rfl) h; exact counterBounded_skipIf hpc hslots taken
  | sknp => obtain ⟨taken, rfl⟩ := exec_keySkip_next (.inr rfl) h; exact counterBounded_skipIf hpc hslots taken
  | ldVxK x =>
    rcases exec_ldVxK_next h with ⟨b, rfl⟩ | rfl
    · exact ⟨hpc.trans (by decide), hslots⟩
    · refine counterBounded_setPc ?_ hslots
      rw [BitVec.toNat_sub_of_le (by simpa [BitVec.le_def] using hlow)]
      omega
  | _ =>
    have hcounter : t.pc = s.pc := exec_keeps h (p := .counter) (by simp [partsWritten])
    have hcalls : Part.callStack.kept s t := exec_keeps h (by simp [partsWritten])
    exact ⟨by rw [hcounter]; omega, hslots.of_eq hcalls⟩

/-- A tick fetches at most at 0xFFE, so the advanced PC is at most 0x1000. -/
theorem tick_counterBounded {s t : State} (hslots : SlotsBounded s) (h : tick s = .next t) : CounterBounded t := by
  obtain ⟨w, i, hfetch, -, hexec⟩ := tick_next h
  have hlast : s.pc.toNat + 1 ≤ 0xFFF := (State.fetchWord_eq_some.1 hfetch).1
  have hpc : s.advancePc.pc.toNat = s.pc.toNat + 2 := by
    rw [State.pc_advancePc, BitVec.toNat_add_of_lt (by simp; omega)]
    rfl
  exact exec_counterBounded (s := s.advancePc) (by omega) (by omega) hslots hexec

/-- Settles O56: a tick keeps the bounds, and the other transactions touch neither PC nor the stack. -/
theorem everyStepKeepsTheCounterBounded : Obligations.EveryStepKeepsTheCounterBounded := by
  intro s s' ⟨hpc, hslots⟩ h
  obtain ⟨rest, h | ⟨bytes, -, rfl⟩ | rfl | ⟨k, p, rfl⟩ | rfl⟩ := step_next h
  · exact tick_counterBounded (s := s.setSchedule rest) hslots h
  · have hcalls := keepsParts_writeBytes (s.setSchedule rest) loadOrigin bytes .callStack List.not_mem_nil
    exact ⟨by rwa [State.writeBytes_pc], SlotsBounded.of_eq (s := s.setSchedule rest) hslots hcalls⟩
  · exact ⟨hpc, hslots⟩
  · exact ⟨hpc, hslots⟩
  · exact ⟨hpc, hslots⟩

/-- Settles O53: after reset memory lists nothing, PC is 0x200 and the stack is empty. -/
theorem resetMeetsTheInvariants : Obligations.ResetMeetsTheInvariants :=
  ⟨⟨List.Pairwise.nil, nofun⟩, by decide, nofun⟩

end Sys2Proof.Machine
end
section
/-! PROOFS. The words of the remaining instructions (R96), the tick's fetch, and control flow (40_control_flow.md). -/

namespace Sys2Proof.Machine

/-! ### Words as the statements write them -/

theorem isWordOf_of_wordNNN {d : Nat} {nnn : BitVec 12} {i : Instr} (h : opcodeMap (wordNNN d nnn) = some i) :
    isWordOf (d * 0x1000 + nnn.toNat) i := decode_of_opcodeMap h

/-- A word of layout `x, y` with its fixed bits written first. -/
theorem isWordOf_of_wordXYN_fixed {d d4 : Nat} {x y : Reg} {i : Instr} (h : opcodeMap (wordXYN d x y d4) = some i) :
    isWordOf (d * 0x1000 + d4 + 0x100 * x.val + 0x10 * y.val) i := by
  rw [show d * 0x1000 + d4 + 0x100 * x.val + 0x10 * y.val = d * 0x1000 + 0x100 * x.val + 0x10 * y.val + d4 by omega]
  exact isWordOf_of_wordXYN h

theorem isWordOf_of_wordX {d low : Nat} {x : Reg} {i : Instr} (h : opcodeMap (wordX d x low) = some i) :
    isWordOf (d * 0x1000 + low + 0x100 * x.val) i := by
  rw [show d * 0x1000 + low + 0x100 * x.val = d * 0x1000 + x.val * 0x100 + low by omega]
  exact decode_of_opcodeMap h

/-! ### Steps and fetches -/

theorem step_eq_transact (s : State) : step s = transact (nextTransaction s).1 (s.setSchedule (nextTransaction s).2) := rfl

theorem step_of_cons {s : State} {t : Transaction} {ts : List Transaction} (h : s.schedule = t :: ts) :
    step s = transact t (s.setSchedule ts) := by
  rw [step_eq_transact, nextTransaction, h]

/-- With nothing scheduled a step is a tick, and the schedule stays empty. -/
theorem step_of_nil {s : State} (h : s.schedule = []) : step s = tick s := by
  have hsame : s.setSchedule [] = s := State.eq_of_fields rfl rfl rfl rfl rfl rfl rfl rfl rfl rfl rfl rfl h.symm
  rw [step_eq_transact, nextTransaction, h]
  exact congrArg tick hsame

/-- Settles O6: by the two forms of the schedule. -/
theorem stepPerformsTheNextTransaction : Obligations.StepPerformsTheNextTransaction :=
  fun _ => ⟨fun _ _ h => step_of_cons h, step_of_nil⟩

/-- Settles O7: the fetch succeeds, and its word is the one that decodes. -/
theorem stepRunsTheDecodedInstruction : Obligations.StepRunsTheDecodedInstruction := by
  intro s i htick hrange hdecode
  rw [step_eq_transact, htick]
  exact tick_of_decode (s := s.setSchedule (nextTransaction s).2) (s.fetchWord_of_le hrange) hdecode

/-- Settles O8: the fetch has no word, and a fault leaves the state. -/
theorem fetchBeyondMemoryFaults : Obligations.FetchBeyondMemoryFaults :=
  fun _ h => ⟨tick_of_gt h, stateAfter_of_fault (t := .tick) (tick_of_gt h)⟩

/-- Settles O9: the two sides of the bound. -/
theorem fetchIsBigEndian : Obligations.FetchIsBigEndian :=
  fun s _ => ⟨fun h => ⟨_, s.fetchWord_of_le h, wordOfBytes_toNat _ _⟩, s.fetchWord_of_gt⟩

/-! ### Skips (R120, R125 to R128) -/

theorem State.skipIf_beq (s : State) (a b : Byte) : s.skipIf (a == b) = s.setPc (if a = b then s.pc + 2 else s.pc) := by
  simp [State.skipIf_eq]

theorem State.skipIf_bne (s : State) (a b : Byte) : s.skipIf (a != b) = s.setPc (if a = b then s.pc else s.pc + 2) := by
  by_cases h : a = b <;> simp [State.skipIf_eq, h]

/-- Settles O18: each skip is `skipIf` on its comparison. -/
theorem skipsAdvanceThePcOnTheirCondition : Obligations.SkipsAdvanceThePcOnTheirCondition := by
  intro s x y nn
  exact ⟨⟨isWordOf_of_wordXNN (d := 0x3) (opcodeMap_encode (.seImm x nn)), congrArg Host.Outcome.next (s.skipIf_beq _ _)⟩,
    ⟨isWordOf_of_wordXNN (d := 0x4) (opcodeMap_encode (.sneImm x nn)), congrArg Host.Outcome.next (s.skipIf_bne _ _)⟩,
    ⟨isWordOf_of_wordXYN (d := 0x5) (d4 := 0x0) (opcodeMap_encode (.seReg x y)), congrArg Host.Outcome.next (s.skipIf_beq _ _)⟩,
    ⟨isWordOf_of_wordXYN (d := 0x9) (d4 := 0x0) (opcodeMap_encode (.sneReg x y)), congrArg Host.Outcome.next (s.skipIf_bne _ _)⟩⟩

/-! ### Jumps (R123, R129) -/

/-- Settles O19: JP is one write of PC. -/
theorem jumpSetsThePc : Obligations.JumpSetsThePc :=
  fun s nnn => ⟨isWordOf_of_wordNNN (d := 0x1) (opcodeMap_encode (.jp nnn)), _, rfl, targetOf_toNat nnn, changesOnlyParts_setPc s _⟩

/-- Settles O20: JP V0 is one write of PC, by a sum that stays below 2^16. -/
theorem jumpWithOffsetIsNotTruncated : Obligations.JumpWithOffsetIsNotTruncated :=
  fun s nnn => ⟨isWordOf_of_wordNNN (d := 0xB) (opcodeMap_encode (.jpV0 nnn)), _, rfl, targetOf_add_wideByte_toNat nnn (s.getV reg0),
    changesOnlyParts_setPc s _⟩

/-! ### RET (R122) -/

/-- RET on a stack with a return address takes one from SP and jumps to the top slot as it stands. -/
theorem exec_ret_of_pos {s : State} (h : 0 < s.sp.val) :
    exec .ret s = .next { s with sp := ⟨s.sp.val - 1, by omega⟩, pc := s.stack[s.sp.val - 1] } :=
  exec_ret_of_pop (State.pop_of_pos h)

/-- Settles O22: RET is a pop and a write of PC. -/
theorem retPopsTheReturnAddress : Obligations.RetPopsTheReturnAddress := by
  refine ⟨decode_of_opcodeMap rfl, fun s => ⟨fun k hk => ?pops, fun hempty => ⟨_, exec_ret_empty hempty⟩⟩⟩
  case pops =>
    refine ⟨_, exec_ret_of_pos (by omega), ?sp, ?pc, rfl, changesOnlyParts_pop s _ _⟩
    case sp => simp only [hk, Nat.add_sub_cancel]
    case pc => simp only [hk, Nat.add_sub_cancel]

theorem Part.kept.trans {p : Part} {s t u : State} (h : p.kept s t) (h' : p.kept t u) : p.kept s u := by
  cases p <;> simp_all [Part.kept]

theorem changesOnlyParts.trans {ps : List Part} {s t u : State} (h : changesOnlyParts ps s t) (h' : changesOnlyParts ps t u) :
    changesOnlyParts ps s u := by
  obtain ⟨hregs, hparts, hmem⟩ := h
  obtain ⟨hregs', hparts', hmem'⟩ := h'
  exact ⟨fun r hr => (hregs' r hr).trans (hregs r hr), fun p hp => (hparts p hp).trans (hparts' p hp),
    fun a => (hmem' a).trans (hmem a)⟩

/-- Settles O23: the slot that CALL wrote, at its SP, is the one that RET pops. -/
theorem retUndoesCall : Obligations.RetUndoesCall := by
  intro s t nnn a hcall
  obtain ⟨hsp, u, hpush, rfl⟩ := exec_call_next hcall
  obtain ⟨u', hpush', husp, hustack, hframe⟩ := State.push_spec hsp s.pc
  cases hpush.symm.trans hpush'
  refine ⟨_, exec_ret_of_pos (s := (u.setPc (targetOf nnn)).setPc a) (by simp [husp]), ?pc, ?sp, ?frame⟩
  case pc =>
    have hslot := hustack ⟨s.sp.val, hsp⟩
    simpa [husp] using hslot
  case sp => exact Fin.ext (by simp [husp])
  case frame =>
    have hcalled : changesOnlyParts [.counter, .callStack] s (u.setPc a) := hframe.setPc a
    exact hcalled.trans (changesOnlyParts_pop (u.setPc a) _ _)

end Sys2Proof.Machine
end

section
/-! PROOFS. Register and arithmetic-logic instructions with a flag, the bitwise ones and RND (41_register_alu.md). -/

namespace Sys2Proof.Machine

/-- Settles O25: each bitwise operation is one register write. -/
theorem bitwiseOperationsDoNotResetTheFlag : Obligations.BitwiseOperationsDoNotResetTheFlag := by
  intro s x y
  exact ⟨⟨isWordOf_of_wordXYN_fixed (d := 0x8) (d4 := 0x1) (opcodeMap_encode (.orReg x y)), completes_of_exec_eq_setV rfl⟩,
    ⟨isWordOf_of_wordXYN_fixed (d := 0x8) (d4 := 0x2) (opcodeMap_encode (.andReg x y)), completes_of_exec_eq_setV rfl⟩,
    ⟨isWordOf_of_wordXYN_fixed (d := 0x8) (d4 := 0x3) (opcodeMap_encode (.xorReg x y)), completes_of_exec_eq_setV rfl⟩⟩

/-! ### Results with a flag (R152) -/

theorem endsWithResultAndFlag_writeResultAndFlag (x : Reg) (r f : Byte) (s : State) :
    endsWithResultAndFlag x r f s (writeResultAndFlag x r f s) := by
  refine ⟨fun hx => ⟨?result, ?flag⟩, fun hx => ?both, changesOnlyRegs_writeResultAndFlag s x r f⟩
  case result => simp [getV_writeResultAndFlag, hx]
  case flag => simp [getV_writeResultAndFlag, hx]
  case both => simp [getV_writeResultAndFlag, hx]

theorem flagOf_toNat (P : Prop) [Decidable P] : (flagOf (decide P)).toNat = if P then 1 else 0 := by
  by_cases h : P <;> simp [h]

/-- An instruction whose meaning is the flag procedure completes with the values that the procedure is given. -/
theorem completes_of_writeResultAndFlag {i : Instr} {s : State} {x : Reg} {r f : Byte} {result flag : Nat}
    (h : exec i s = .next (writeResultAndFlag x r f s)) (hr : r.toNat = result) (hf : f.toNat = flag) :
    ∃ (t : State) (r f : Byte), exec i s = .next t ∧ endsWithResultAndFlag x r f s t ∧ r.toNat = result ∧ f.toNat = flag :=
  ⟨_, r, f, h, endsWithResultAndFlag_writeResultAndFlag x r f s, hr, hf⟩

/-- Settles O27: the carry is 1 exactly when the sum on naturals passes 255. -/
theorem addSetsTheCarry : Obligations.AddSetsTheCarry :=
  fun _ x y => ⟨isWordOf_of_wordXYN_fixed (d := 0x8) (d4 := 0x4) (opcodeMap_encode (.addReg x y)),
    completes_of_writeResultAndFlag rfl (BitVec.toNat_add _ _) (flagOf_toNat _)⟩

theorem sub_toNat (a b : Byte) : (a - b).toNat = (a.toNat + 256 - b.toNat) % 256 := by
  have hb := b.isLt
  rw [BitVec.toNat_sub]
  omega

/-- Settles O28: the not-borrow is 1 exactly when the subtrahend is at most the minuend. -/
theorem subtractionsSetTheNotBorrow : Obligations.SubtractionsSetTheNotBorrow :=
  fun _ x y => ⟨⟨isWordOf_of_wordXYN_fixed (d := 0x8) (d4 := 0x5) (opcodeMap_encode (.subReg x y)),
      completes_of_writeResultAndFlag rfl (sub_toNat _ _) (flagOf_toNat _)⟩,
    ⟨isWordOf_of_wordXYN_fixed (d := 0x8) (d4 := 0x7) (opcodeMap_encode (.subnReg x y)),
      completes_of_writeResultAndFlag rfl (sub_toNat _ _) (flagOf_toNat _)⟩⟩

theorem shiftOperand_eq (x y : Reg) (s : State) :
    shiftOperand x y s = if s.cfg.shiftSource = .vx then s.getV x else s.getV y := by
  unfold shiftOperand
  split <;> simp [*]

theorem shiftRight_toNat (a : Byte) : (a >>> 1).toNat = a.toNat / 2 := by
  rw [BitVec.toNat_ushiftRight, Nat.shiftRight_eq_div_pow, Nat.pow_one]

theorem shiftLeft_toNat (a : Byte) : (a <<< 1).toNat = 2 * a.toNat % 256 := by
  rw [BitVec.toNat_shiftLeft, Nat.shiftLeft_eq, Nat.pow_one, Nat.mul_comm]

theorem shiftRightFlag_toNat (a : Byte) : (shiftRightFlag a).toNat = a.toNat % 2 := by
  rw [shiftRightFlag, BitVec.toNat_and]
  exact Nat.and_one_is_mod _

theorem shiftLeftFlag_toNat (a : Byte) : (shiftLeftFlag a).toNat = a.toNat / 128 := by
  rw [shiftLeftFlag, BitVec.toNat_ushiftRight, Nat.shiftRight_eq_div_pow]

/-- Settles O29: both shifts of the operand that `SHIFT_SOURCE` names, in naturals. -/
theorem shiftsMoveTheEvictedBitToTheFlag : Obligations.ShiftsMoveTheEvictedBitToTheFlag := by
  intro s x y a ha
  rw [← shiftOperand_eq] at ha
  subst ha
  exact ⟨⟨isWordOf_of_wordXYN_fixed (d := 0x8) (d4 := 0x6) (opcodeMap_encode (.shr x y)),
      completes_of_writeResultAndFlag rfl (shiftRight_toNat _) (shiftRightFlag_toNat _)⟩,
    ⟨isWordOf_of_wordXYN_fixed (d := 0x8) (d4 := 0xE) (opcodeMap_encode (.shl x y)),
      completes_of_writeResultAndFlag rfl (shiftLeft_toNat _) (shiftLeftFlag_toNat _)⟩⟩

/-! ### RND (R151) -/

/-- Settles O30: RND is one register write and one more draw. -/
theorem rndMasksTheDrawnByte : Obligations.RndMasksTheDrawnByte := by
  intro s x nn
  refine ⟨isWordOf_of_wordXNN (d := 0xC) (opcodeMap_encode (.rnd x nn)), _, rfl, State.getV_setV_same s x _, ?mask, rfl, ?regs,
    keepsParts_setDraws_setV s x _ _, fun _ => rfl⟩
  case mask => rw [State.getV_setDraws, State.getV_setV_same, BitVec.and_assoc, BitVec.and_not_self]; exact BitVec.and_zero
  case regs =>
    obtain ⟨hregs, -, -⟩ := changesOnlyRegs_setV s x (drawRand s &&& nn)
    exact hregs

end Sys2Proof.Machine
end
section
/-! PROOFS. Index register and memory instructions (42_index_memory.md): what a run of stored bytes reads back as, and the faults of
an access beyond memory. -/

namespace Sys2Proof.Machine

/-! ### The index register (R170 to R172) -/

theorem glyphAddress_toNat (b : Byte) : (glyphAddress b).toNat = 5 * b.toNat := by
  have hb := b.isLt
  have hfive : (5 : Word).toNat = 5 := rfl
  rw [glyphAddress, BitVec.toNat_mul, wideByte_toNat, hfive]
  omega

/-- Settles O31: each is one write of I; Vx × 5 stays below 2^16. -/
theorem indexLoadsSetOnlyTheIndex : Obligations.IndexLoadsSetOnlyTheIndex :=
  fun s x nnn => ⟨⟨isWordOf_of_wordNNN (d := 0xA) (opcodeMap_encode (.ldI nnn)), _, rfl, targetOf_toNat nnn,
      changesOnlyParts_setI s _⟩,
    ⟨isWordOf_of_wordX (d := 0xF) (low := 0x29) (opcodeMap_encode (.ldF x)), _, rfl, glyphAddress_toNat (s.getV x),
      changesOnlyParts_setI s _⟩⟩

/-- Settles O32: one write of I, by a sum of 16-bit words. -/
theorem addToIndexWrapsWithoutFlag : Obligations.AddToIndexWrapsWithoutFlag := by
  refine fun s x => ⟨isWordOf_of_wordX (d := 0xF) (low := 0x1E) (opcodeMap_encode (.addI x)), _, rfl, ?sum,
    changesOnlyParts_setI s _⟩
  case sum => rw [State.i_setI, BitVec.toNat_add, wideByte_toNat]

/-! ### Accesses in and out of range (R66) -/

/-- An instruction that is checked for its highest address `last` raises MemoryOutOfRange beyond 0xFFF. -/
theorem exec_memoryOutOfRange {i : Instr} {s : State} {last : Nat}
    (hcheck : checkOf i (s.pc - 2) s = rangeFault { pc := s.pc - 2, word := encode i } last) (h : 0xFFF < last) :
    exec i s = .fault (.memoryOutOfRange { pc := s.pc - 2, word := encode i } last) := by
  rw [exec_eq_fault, hcheck, rangeFault, if_pos h]

theorem exec_ldB_of_le {s : State} (h : s.i.toNat + 2 ≤ 0xFFF) (x : Reg) :
    exec (.ldB x) s = .next (s.writeBytes s.i.toNat (bcdDigits (s.getV x))) :=
  checkRange_pass (.inr h)

theorem exec_storeRegs_of_le {s : State} {x : Reg} (h : s.i.toNat + x.val ≤ 0xFFF) :
    exec (.storeRegs x) s = .next (s.writeBytes s.i.toNat (registersThrough x s)) :=
  checkRange_pass (.inr h)

theorem exec_loadRegs_of_le {s : State} {x : Reg} (h : s.i.toNat + x.val ≤ 0xFFF) :
    exec (.loadRegs x) s = .next { s with v := loadedRegisters x s } :=
  checkRange_pass (.inr h)

/-! ### Bytes read back (R68, R70) -/

/-- In a canonical memory a run of written bytes reads back byte by byte. -/
theorem byteAt_writeBytes_offset {s : State} (hs : MemoryCanonical s) {a : Nat} {bs : List Byte}
    (hrange : a + bs.length ≤ 0x1000) (k : Nat) (hk : k < bs.length) : (s.writeBytes a bs).byteAt (a + k) = bs[k] := by
  have hin : a ≤ a + k ∧ a + k < a + bs.length := by omega
  rw [State.byteAt_writeBytes hs hrange, dif_pos hin]
  simp only [Nat.add_sub_cancel_left]

/-- Settles O33: the three digits read back from the run that LD B writes; the check is of I + 2. -/
theorem bcdStoresThreeDigits : Obligations.BcdStoresThreeDigits := by
  intro s x
  refine ⟨isWordOf_of_wordX (d := 0xF) (low := 0x33) (opcodeMap_encode (.ldB x)), fun hs hrange => ?stored,
    exec_memoryOutOfRange rfl⟩
  case stored =>
    have hv := (s.getV x).isLt
    have hread := byteAt_writeBytes_offset hs (bs := bcdDigits (s.getV x)) (a := s.i.toNat) (by simp [bcdDigits]; omega)
    have hdigit (k : Nat) (hk : k < 3) {n : Nat} (hn : n < 256) (hval : (bcdDigits (s.getV x))[k] = BitVec.ofNat 8 n) :
        ((s.writeBytes s.i.toNat (bcdDigits (s.getV x))).byteAt (s.i.toNat + k)).toNat = n := by
      rw [hread k hk, hval, BitVec.toNat_ofNat, Nat.mod_eq_of_lt hn]
    exact ⟨_, exec_ldB_of_le hrange x, hdigit 0 (by decide) (by omega) rfl, hdigit 1 (by decide) (by omega) rfl,
      hdigit 2 (by decide) (by omega) rfl, keepsMemoryOutside_writeBytes s _ rfl, fun r _ => State.getV_writeBytes ..,
      keepsParts_writeBytes s _ _⟩

/-- Each stored register reads back from its address (R174). -/
theorem byteAt_of_exec_storeRegs {s t : State} {x : Reg} (hs : MemoryCanonical s) (h : exec (.storeRegs x) s = .next t)
    {k : Reg} (hk : k ≤ x) : t.byteAt (s.i.toNat + k.val) = s.getV k := by
  obtain ⟨hrange, rfl⟩ := exec_storeRegs_next h
  have hrange' : s.i.toNat + x.val ≤ 0xFFF := hrange
  have hlen := length_registersThrough x s
  have hlt : k.val < (registersThrough x s).length := by rw [hlen]; exact Nat.lt_succ_of_le hk
  rw [byteAt_writeBytes_offset hs (by omega) k.val hlt, getElem_registersThrough]

/-- Settles O34: the run that LD [I], Vx writes holds the registers in order; the check is of I + x. -/
theorem storeRegistersFillsMemoryFromI : Obligations.StoreRegistersFillsMemoryFromI := by
  intro s x
  refine ⟨isWordOf_of_wordX (d := 0xF) (low := 0x55) (opcodeMap_encode (.storeRegs x)), fun hs hrange => ?stored,
    exec_memoryOutOfRange rfl⟩
  case stored =>
    have hexec := exec_storeRegs_of_le hrange
    exact ⟨_, hexec, fun _ hk => byteAt_of_exec_storeRegs hs hexec hk,
      keepsMemoryOutside_writeBytes s _ (length_registersThrough x s), fun r _ => State.getV_writeBytes ..,
      keepsParts_writeBytes s _ _⟩

/-- Settles O35: the loaded register file, register by register; the check is of I + x. -/
theorem loadRegistersReadsMemoryFromI : Obligations.LoadRegistersReadsMemoryFromI := by
  intro s x
  refine ⟨isWordOf_of_wordX (d := 0xF) (low := 0x65) (opcodeMap_encode (.loadRegs x)), fun hrange => ?loaded,
    exec_memoryOutOfRange rfl⟩
  case loaded =>
    exact ⟨_, exec_loadRegs_of_le hrange, fun k => getV_loadedRegisters x k s, keepsParts_nil_of_v s _,
      keepsMemory_of_v s _⟩

/-- Settles O36: the load reads the bytes that the store wrote. -/
theorem loadAfterStoreRestoresRegisters : Obligations.LoadAfterStoreRestoresRegisters := by
  intro s t u x hs hstore hmem hcfg hi
  obtain ⟨hrange, -⟩ := exec_storeRegs_next hstore
  refine ⟨_, exec_loadRegs_of_le (s := u) (by rwa [hi]), fun k hk => ?_⟩
  have hbyte : u.byteAt (u.i.toNat + k.val) = t.byteAt (s.i.toNat + k.val) := by
    rw [State.byteAt, State.byteAt, hmem, hcfg, hi]
  rw [getV_loadedRegisters, if_pos hk, hbyte, byteAt_of_exec_storeRegs hs hstore hk]

/-- Settles O37: both bytes of the fetched word were stored, and the second one's address exists. -/
theorem fetchSeesStoredBytes : Obligations.FetchSeesStoredBytes := by
  intro s t x k j hs hstore hj hjk
  obtain ⟨hrange, -⟩ := exec_storeRegs_next hstore
  have hjx : j.val ≤ x.val := hj
  have hkx : k ≤ x := by rw [Fin.le_def]; omega
  have hlast : s.i.toNat + k.val + 1 = s.i.toNat + j.val := by omega
  have hfits : s.i.toNat + k.val + 1 ≤ 0xFFF := le_trans (by omega) hrange
  rw [State.fetchWord_of_le t hfits, hlast, byteAt_of_exec_storeRegs hs hstore hkx, byteAt_of_exec_storeRegs hs hstore hj]

end Sys2Proof.Machine
end
section
/-! PROOFS. DRW (43_display.md): a sprite is drawn by inverting the cells under its 1 bits one after the other, and no cell comes
twice. -/

namespace Sys2Proof.Machine

/-! ### Cells inverted one after the other -/

/-- One cell inverted, a set one being a collision (R191). -/
def plot (a : Canvas) (p : Fin 64 × Fin 32) : Canvas := { fb := a.fb.flip p.1 p.2, hit := a.hit || a.fb.cell p.1 p.2 }

theorem cell_plot (a : Canvas) (p : Fin 64 × Fin 32) (c : Fin 64) (r : Fin 32) :
    (plot a p).fb.cell c r = (a.fb.cell c r ^^ decide ((c, r) = p)) := by
  simp only [plot, Framebuffer.cell_flip, Prod.ext_iff]

/-- Inverting distinct cells inverts each of them once. -/
theorem cell_foldl_plot {ps : List (Fin 64 × Fin 32)} (hps : ps.Nodup) (a : Canvas) (c : Fin 64) (r : Fin 32) :
    (ps.foldl plot a).fb.cell c r = (a.fb.cell c r ^^ decide ((c, r) ∈ ps)) := by
  induction ps generalizing a with
  | nil => simp
  | cons p ps ih =>
    obtain ⟨hp, hps⟩ := List.nodup_cons.1 hps
    rw [List.foldl_cons, ih hps, cell_plot]
    by_cases hcr : (c, r) = p
    · have hnot : (c, r) ∉ ps := hcr ▸ hp
      simp [hcr, hp]
    · simp [hcr]

/-- When distinct cells are inverted, each collides exactly if it was set at first. -/
theorem hit_foldl_plot {ps : List (Fin 64 × Fin 32)} (hps : ps.Nodup) (a : Canvas) :
    (ps.foldl plot a).hit = (a.hit || ps.any fun p => a.fb.cell p.1 p.2) := by
  induction ps generalizing a with
  | nil => simp
  | cons p ps ih =>
    obtain ⟨hp, hps⟩ := List.nodup_cons.1 hps
    have hsame : (ps.any fun q => (plot a p).fb.cell q.1 q.2) = ps.any fun q => a.fb.cell q.1 q.2 := by
      rw [Bool.eq_iff_iff, List.any_eq_true, List.any_eq_true]
      refine exists_congr fun q => and_congr_right fun hq => ?_
      have hqp : q ≠ p := fun heq => hp (heq ▸ hq)
      simp [cell_plot, hqp]
    rw [List.foldl_cons, ih hps, hsame, List.any_cons, ← Bool.or_assoc, plot]

/-! ### The cells under a sprite -/

/-- The cells under the 1 bits of the sprite, row by row from the top and from the left in a row (R191). -/
def litCells (x0 y0 n : Nat) (s : State) : List (Fin 64 × Fin 32) :=
  ((List.range n ×ˢ List.range 8).filter fun rc => (s.byteAt (s.i.toNat + rc.1)).getLsbD (7 - rc.2)).map
    fun rc => (Fin.ofNat 64 (x0 + rc.2), Fin.ofNat 32 (y0 + rc.1))

theorem zipIdx_spriteRows (n : Nat) (s : State) :
    (spriteRows n s).zipIdx = (List.range n).map fun r => (s.byteAt (s.i.toNat + r), r) :=
  List.ext_getElem (by simp [spriteRows]) (by simp [spriteRows])

theorem drawSprite_eq (x0 y0 n : Nat) (s : State) (fb : Framebuffer) :
    drawSprite x0 y0 (spriteRows n s) fb = (litCells x0 y0 n s).foldl plot { fb := fb, hit := false } := by
  rw [drawSprite, zipIdx_spriteRows, litCells, List.foldl_map, List.foldl_map, List.foldl_filter]
  change _ = ((List.range n).flatMap fun r => (List.range 8).map (Prod.mk r)).foldl _ _
  simp only [List.foldl_flatMap, List.foldl_map]
  rfl

/-- The 16 rows and 8 columns of a sprite never wrap onto each other. -/
theorem nodup_litCells (x0 y0 : Nat) {n : Nat} (hn : n ≤ 32) (s : State) : (litCells x0 y0 n s).Nodup := by
  refine List.Nodup.map_on ?_ ((List.nodup_range.product List.nodup_range).filter _)
  rintro ⟨r, c⟩ hrc ⟨r', c'⟩ hrc' heq
  simp only [List.mem_filter, List.mem_product, List.mem_range, Prod.mk.injEq, Fin.ext_iff, Fin.ofNat] at hrc hrc' heq ⊢
  omega

theorem mem_litCells {x0 y0 n : Nat} (hx : x0 < 64) (hy : y0 < 32) (hn : n ≤ 32) (s : State) (c : Fin 64) (r : Fin 32) :
    (c, r) ∈ litCells x0 y0 n s ↔ spriteCovers x0 y0 n s c r = true := by
  have hc := c.isLt
  have hr := r.isLt
  simp only [litCells, spriteCovers, List.mem_map, List.mem_filter, Prod.exists, List.mem_product, List.mem_range,
    Prod.mk.injEq, Bool.and_eq_true, decide_eq_true_eq, Fin.ext_iff, Fin.ofNat]
  constructor
  · rintro ⟨row, col, ⟨⟨hrow, hcol⟩, hbit⟩, hcx, hry⟩
    obtain rfl : (c.val + 64 - x0) % 64 = col := by omega
    obtain rfl : (r.val + 32 - y0) % 32 = row := by omega
    exact ⟨⟨hcol, hrow⟩, hbit⟩
  · rintro ⟨⟨hcol, hrow⟩, hbit⟩
    exact ⟨_, _, ⟨⟨hrow, hcol⟩, hbit⟩, by omega, by omega⟩

/-! ### The drawn canvas (R191) -/

/-- The sprite that DRW draws has a 1 bit over the cell. -/
abbrev drwCovers (x y : Reg) (n : Fin 16) (s : State) (c : Fin 64) (r : Fin 32) : Bool :=
  spriteCovers ((s.getV x).toNat % 64) ((s.getV y).toNat % 32) n.val s c r

section
variable (x y : Reg) (n : Fin 16) (s : State)

theorem drawnCanvas_eq : drawnCanvas x y n s =
    (litCells ((s.getV x).toNat % 64) ((s.getV y).toNat % 32) n.val s).foldl plot { fb := s.fb, hit := false } :=
  drawSprite_eq ..

theorem mem_litCells_drw (c : Fin 64) (r : Fin 32) :
    (c, r) ∈ litCells ((s.getV x).toNat % 64) ((s.getV y).toNat % 32) n.val s ↔ drwCovers x y n s c r = true :=
  mem_litCells (Nat.mod_lt _ (by decide)) (Nat.mod_lt _ (by decide)) (by omega) s c r

theorem cell_drawnCanvas (c : Fin 64) (r : Fin 32) :
    (drawnCanvas x y n s).fb.cell c r = (s.fb.cell c r ^^ drwCovers x y n s c r) := by
  rw [drawnCanvas_eq, cell_foldl_plot (nodup_litCells _ _ (by omega) s)]
  simp only [mem_litCells_drw, Bool.decide_eq_true]

theorem hit_drawnCanvas :
    (drawnCanvas x y n s).hit = true ↔ ∃ c r, drwCovers x y n s c r = true ∧ s.fb.cell c r = true := by
  rw [drawnCanvas_eq, hit_foldl_plot (nodup_litCells _ _ (by omega) s)]
  simp only [Bool.false_or, List.any_eq_true, Prod.exists, mem_litCells_drw]

end

theorem exec_drw_of_le {s : State} {n : Fin 16} (h : n.val = 0 ∨ s.i.toNat + n.val - 1 ≤ 0xFFF) (x y : Reg) :
    exec (.drw x y n) s =
      .next ((s.setFb (drawnCanvas x y n s).fb).setV regF (collisionFlag (drawnCanvas x y n s).hit)) := by
  rw [exec_drw_eq, checkRange_pass h]

/-- Settles O39: the drawn canvas, cell by cell, and the collision as VF; the check is of the last row. -/
theorem drwInvertsTheCellsUnderTheSprite : Obligations.DrwInvertsTheCellsUnderTheSprite := by
  intro s x y n x0 y0 hx hy
  subst hx hy
  refine ⟨isWordOf_of_wordXYN (d := 0xD) (opcodeMap_encode (.drw x y n)), fun hrange => ?drawn, fun hn => ?faults⟩
  case drawn =>
    refine ⟨_, exec_drw_of_le hrange x y, cell_drawnCanvas x y n s, fun hhit => ?_, fun hmiss => ?_, ?_,
      keepsParts_setFb_setV s _ _ _, fun _ => rfl⟩
    · rw [State.getV_setV_same, (hit_drawnCanvas x y n s).2 hhit]
      rfl
    · rw [State.getV_setV_same, Bool.eq_false_iff.2 fun hhit => hmiss ((hit_drawnCanvas x y n s).1 hhit)]
      rfl
    · obtain ⟨hregs, -, -⟩ := changesOnlyRegs_setV s regF (collisionFlag (drawnCanvas x y n s).hit)
      exact hregs
  case faults => exact exec_memoryOutOfRange (if_neg (by omega))

theorem collisionFlag_eq_one {hit : Bool} : collisionFlag hit = 1 ↔ hit = true := by
  cases hit <;> decide

/-- Settles O40: the second draw covers the same cells, so each is inverted back, and it collides where the first one set a
cell. -/
theorem drwTwiceRestoresTheFramebuffer : Obligations.DrwTwiceRestoresTheFramebuffer := by
  intro s t x y n h
  obtain ⟨hrange, rfl⟩ := exec_drw_next h
  have hcell := cell_drawnCanvas x y n s
  refine ⟨_, exec_drw_of_le (s := s.setFb (drawnCanvas x y n s).fb) hrange x y, Framebuffer.ext_cell fun c r => ?_, ?_⟩
  · rw [State.fb_setV, State.fb_setFb, cell_drawnCanvas, State.fb_setFb, hcell, Bool.xor_assoc]
    exact (congrArg _ (Bool.xor_self _)).trans (Bool.xor_false _)
  · rw [State.getV_setV_same, collisionFlag_eq_one, hit_drawnCanvas]
    refine exists_congr fun c => exists_congr fun r => and_congr_right fun hcovers => ?_
    have hcovers' : drwCovers x y n s c r = true := hcovers
    rw [State.fb_setFb, hcell, hcovers', Bool.xor_true, Bool.not_eq_true']

end Sys2Proof.Machine
end
section
/-! PROOFS. Key and timer instructions (44_timers_keys.md). -/

namespace Sys2Proof.Machine

/-! ### Key skips (R210 to R212) -/

/-- Settles O41: with an index in range each key skip is `skipIf` on the latch or its negation, with a larger one it faults. -/
theorem keySkipsTestTheLatch : Obligations.KeySkipsTestTheLatch := by
  intro s x
  refine ⟨isWordOf_of_wordX (d := 0xE) (low := 0x9E) (opcodeMap_encode (.skp x)),
    isWordOf_of_wordX (d := 0xE) (low := 0xA1) (opcodeMap_encode (.sknp x)), fun k hk => ?inRange,
    fun h => ⟨exec_skp_of_ge h, exec_sknp_of_ge h⟩⟩
  case inRange =>
    have hlt : (s.getV x).toNat < 16 := hk ▸ k.isLt
    have hindex : (⟨(s.getV x).toNat, hlt⟩ : Fin 16) = k := Fin.ext hk
    rw [exec_skp_of_lt hlt, exec_sknp_of_lt hlt, hindex, State.skipIf_eq, State.skipIf_eq, State.getKey]
    exact ⟨rfl, by cases s.key[k.val] <;> rfl⟩

/-! ### The key wait (R214) -/

/-- Settles O42: the scan finds the lowest pressed key, or none. -/
theorem keyWaitTakesTheLowestPressedKey : Obligations.KeyWaitTakesTheLowestPressedKey := by
  refine fun s x => ⟨isWordOf_of_wordX (d := 0xF) (low := 0x0A) (opcodeMap_encode (.ldVxK x)), fun k hk hlow => ?pressed,
    fun hnone => exec_ldVxK_of_none (firstPressedKey_eq_none.2 hnone) x⟩
  case pressed =>
    have hfirst : firstPressedKey s = some k := firstPressedKey_eq_some.2 ⟨hk, hlow⟩
    obtain ⟨t, hexec, hval, hframe⟩ := completes_of_exec_eq_setV (exec_ldVxK_of_some hfirst x)
    refine ⟨t, hexec, ?_, hframe⟩
    rw [hval, BitVec.toNat_ofNat]
    omega

/-- Settles O43: the wait takes back the advance of the tick that runs it. -/
theorem waitingTickChangesNothing : Obligations.WaitingTickChangesNothing := by
  intro s w x hw hi hnone
  have hpc : s.advancePc.rewindPc = s :=
    State.eq_of_fields rfl rfl (BitVec.add_sub_cancel s.pc 2) rfl rfl rfl rfl rfl rfl rfl rfl rfl rfl
  rw [tick_of_decode hw hi, exec_ldVxK_of_none (s := s.advancePc) (firstPressedKey_eq_none.2 hnone), hpc]

/-! ### Timers (R213, R215, R216) -/

theorem soundActive_iff (s : State) : soundActive s = true ↔ s.st ≠ 0 := bne_iff_ne

/-- Settles O44: each is one write of a register or of a timer. -/
theorem timerInstructionsMoveTheTimers : Obligations.TimerInstructionsMoveTheTimers := by
  intro s x
  exact ⟨⟨isWordOf_of_wordX (d := 0xF) (low := 0x07) (opcodeMap_encode (.ldVxDt x)), completes_of_exec_eq_setV rfl⟩,
    ⟨isWordOf_of_wordX (d := 0xF) (low := 0x15) (opcodeMap_encode (.ldDtVx x)), _, rfl, rfl, changesOnlyParts_setDt s _⟩,
    ⟨isWordOf_of_wordX (d := 0xF) (low := 0x18) (opcodeMap_encode (.ldStVx x)), _, rfl, rfl, soundActive_iff _,
      changesOnlyParts_setSt s _⟩⟩

end Sys2Proof.Machine
end

section
/-! PROOFS. The host's transactions (10_state.md section 7, 20_memory.md section 4, 60_exceptions.md sections 7 and 8). -/

namespace Sys2Proof.Machine

/-! ### `tick_timers` (R241) -/

theorem countDown_toNat (b : Byte) : (countDown b).toNat = b.toNat - 1 := by
  unfold countDown
  split
  · simp [*]
  · rename_i h
    have hpos : b.toNat ≠ 0 := fun h0 => h (BitVec.eq_of_toNat_eq h0)
    have hle : (1 : Byte) ≤ b := by rw [BitVec.le_def]; exact Nat.one_le_iff_ne_zero.2 hpos
    rw [BitVec.toNat_sub_of_le hle]
    rfl

theorem changesOnlyParts.mono {ps ps' : List Part} {s t : State} (h : changesOnlyParts ps s t) (hsub : ps ⊆ ps') :
    changesOnlyParts ps' s t := by
  obtain ⟨hregs, hparts, hmem⟩ := h
  exact ⟨hregs, hparts.mono hsub, hmem⟩

theorem changesOnlyParts_tickTimers (s : State) : changesOnlyParts [.delayTimer, .soundTimer] s (tickTimers s) :=
  ((changesOnlyParts_setDt s (countDown s.dt)).mono (by simp)).trans ((changesOnlyParts_setSt _ (countDown s.st)).mono (by simp))

/-- Settles O45: both timers are counted down on naturals, with the floor at 0. -/
theorem tickTimersCountsBothDown : Obligations.TickTimersCountsBothDown :=
  fun s => ⟨tickTimers s, rfl, countDown_toNat s.dt, countDown_toNat s.st, changesOnlyParts_tickTimers s⟩

/-- Settles O46: by induction on the number of calls. -/
theorem timersStopAtZero : Obligations.TimersStopAtZero := by
  intro n
  induction n with
  | zero => exact fun s => ⟨rfl, rfl⟩
  | succ n ih =>
    intro s
    have hdt : (tickTimers s).dt.toNat = s.dt.toNat - 1 := countDown_toNat s.dt
    have hst : (tickTimers s).st.toNat = s.st.toNat - 1 := countDown_toNat s.st
    obtain ⟨ihdt, ihst⟩ := ih (tickTimers s)
    rw [List.replicate_succ, stateAfterAll, stateAfter_tickTimers]
    omega

/-! ### `keypress` (R244) -/

theorem keypress_of_fin (k : Fin 16) (p : Bool) (s : State) : keypress k.val p s = s.setKey k p := dif_pos k.isLt

theorem keypress_of_gt {index : Nat} (h : 15 < index) (p : Bool) (s : State) : keypress index p s = s :=
  dif_neg (Nat.not_lt.2 h)

theorem respond_keypress_of_fin (k : Fin 16) (p : Bool) (s : State) : respond (.keypress k.val p) s = .ok := by
  simp [respond, transact, keypressResponse]

theorem respond_keypress_of_gt {index : Nat} (h : 15 < index) (p : Bool) (s : State) :
    respond (.keypress index p) s = .error (.keypressIndexOutOfRange index) := by
  simp [respond, transact, keypressResponse, Nat.not_lt.2 h]

/-- Settles O47: one latch is written, or nothing is. -/
theorem keypressSetsOneLatch : Obligations.KeypressSetsOneLatch := by
  intro s p
  refine ⟨fun index => ⟨respond_keypress_of_fin index p s, s.setKey index p, ?next, fun k => ?latches,
    changesOnlyParts_setKey s index p⟩, fun index h => ⟨?outOfRange, respond_keypress_of_gt h p s⟩⟩
  case next => rw [transact, keypress_of_fin]
  case latches =>
    have hlatch := State.getKey_setKey s index k p
    simp only [eq_comm (a := k)]
    exact hlatch
  case outOfRange => rw [transact, keypress_of_gt h]

/-- Settles O48: the second write of the latch is of what it held at first. -/
theorem shortKeypressIsNeverSeen : Obligations.ShortKeypressIsNeverSeen := by
  intro s k hk
  rw [stateAfterAll, stateAfterAll, stateAfterAll, stateAfter_keypress, stateAfter_keypress, keypress_of_fin, keypress_of_fin]
  have hkey : ((s.setKey k true).setKey k false).key = s.key := by
    apply Vector.ext
    intro j hj
    by_cases hjk : k.val = j
    · subst hjk
      simp [hk]
    · simp [hjk]
  exact State.eq_of_fields rfl rfl rfl rfl rfl rfl rfl hkey rfl rfl rfl rfl rfl

/-! ### `load` (R72) -/

/-- Settles O49: a ROM that fits is a run of bytes written from 0x200, which reads back byte by byte. -/
theorem loadCopiesTheRom : Obligations.LoadCopiesTheRom := by
  intro s bytes
  refine ⟨fun hs hlen => ?fits, fun hlong => ?tooLong⟩
  case fits =>
    have hload : transact (.load bytes) s = .next (s.writeBytes loadOrigin bytes) := if_neg (Nat.not_lt.2 hlen)
    have hrange : loadOrigin + bytes.length ≤ 0x1000 := Nat.add_le_add_left hlen loadOrigin
    exact ⟨_, hload, fun k hk => byteAt_writeBytes_offset hs hrange k hk, keepsMemoryOutside_writeBytes s _ rfl,
      fun r _ => State.getV_writeBytes .., keepsParts_writeBytes s _ _⟩
  case tooLong =>
    have hload : transact (.load bytes) s = .fault (.romTooLarge bytes.length) := if_pos hlong
    exact ⟨hload, stateAfter_of_fault hload⟩

/-! ### The reads (R49, R50) -/

/-- In a concatenation of blocks of one length, element `x` of block `y` stands at `y * len + x`. -/
theorem getElem?_flatMap_blocks {α β : Type} {f : α → List β} {len : Nat} (hlen : ∀ a, (f a).length = len) {x : Nat} (hx : x < len) :
    ∀ (blocks : List α) (y : Nat), (blocks.flatMap f)[y * len + x]? = blocks[y]?.bind fun a => (f a)[x]?
  | [], y => by simp
  | a :: blocks, 0 => by simp [List.getElem?_append, hlen, hx]
  | a :: blocks, y + 1 => by
    have hge : (f a).length ≤ (y + 1) * len + x := by rw [hlen, Nat.succ_mul]; omega
    have hsub : (y + 1) * len + x - (f a).length = y * len + x := by rw [hlen, Nat.succ_mul]; omega
    rw [List.flatMap_cons, List.getElem?_append_right hge, hsub, getElem?_flatMap_blocks hlen hx blocks y,
      List.getElem?_cons_succ]

theorem length_framebufferRead (s : State) : (framebufferRead s).length = 2048 := by
  simp [framebufferRead, List.length_flatMap]

theorem getElem?_framebufferRead (s : State) (x : Fin 64) (y : Fin 32) :
    (framebufferRead s)[y.val * 64 + x.val]? = some (s.fb.cell x y) := by
  rw [framebufferRead, getElem?_flatMap_blocks (fun row => row.length_toList) x.isLt]
  simp [Framebuffer.cell]

/-- Settles O50: the cells in row-major order, and the sound timer compared with 0. -/
theorem readsReportTheStateUnchanged : Obligations.ReadsReportTheStateUnchanged :=
  fun s => ⟨⟨_, rfl, rfl, length_framebufferRead s, getElem?_framebufferRead s⟩, _, rfl, rfl, soundActive_iff s⟩

end Sys2Proof.Machine
end

section
/-! PROOFS. Runs of ticks: the unloaded core (70_reset_and_hazards.md section 2), the jump to itself, and the placed word. -/

namespace Sys2Proof.Machine

/-! ### Runs -/

theorem run_succ_of_step {s t : State} (h : step s = .next t) (k : Nat) :
    Host.Core.run core (k + 1) s = Host.Core.run core k t := by
  have hstep : core.step s = .next t := h
  simp only [Host.Core.run, hstep]

theorem run_one (s : State) : Host.Core.run core 1 s = step s := by
  have hstep : core.step s = step s := rfl
  cases h : step s <;> simp only [Host.Core.run, hstep, h] <;> rfl

/-- A run along states that step to one another reaches each of them, and one step more is the step of the last. -/
theorem run_of_steps {f : Nat → State} {n : Nat} (h : ∀ k < n, step (f k) = .next (f (k + 1))) :
    (∀ k ≤ n, Host.Core.run core k (f 0) = .next (f k)) ∧ Host.Core.run core (n + 1) (f 0) = step (f n) := by
  induction n generalizing f with
  | zero => exact ⟨fun k hk => by rw [Nat.le_zero.1 hk]; rfl, run_one (f 0)⟩
  | succ n ih =>
    have hfirst := run_succ_of_step (h 0 (Nat.succ_pos n))
    obtain ⟨hreach, hlast⟩ := ih (f := fun k => f (k + 1)) fun k hk => h (k + 1) (Nat.succ_lt_succ hk)
    refine ⟨fun k hk => ?_, (hfirst (n + 1)).trans hlast⟩
    cases k with
    | zero => rfl
    | succ k => exact (hfirst k).trans (hreach k (Nat.le_of_succ_le_succ hk))

/-! ### The unloaded core (R265) -/

/-- The state of the unloaded core after k NOPs. -/
def nopState (cfg : Config) (k : Nat) : State := (State.construct cfg).setPc (BitVec.ofNat 16 (0x200 + 2 * k))

theorem pc_nopState (cfg : Config) {k : Nat} (hk : k ≤ 1792) : (nopState cfg k).pc.toNat = 0x200 + 2 * k := by
  rw [nopState, State.pc_setPc, BitVec.toNat_ofNat]
  omega

/-- From 0x200 upward the unloaded memory holds zeros, which are NOPs (R62, R121). -/
theorem step_nopState (cfg : Config) {k : Nat} (hk : k < 1792) : step (nopState cfg k) = .next (nopState cfg (k + 1)) := by
  have hpc := pc_nopState cfg hk.le
  have hbyte (a : Nat) (ha : 80 ≤ a) : (nopState cfg k).byteAt a = 0 := Memory.unlisted_of_le cfg.font ha
  have hfetch : (nopState cfg k).fetchWord (nopState cfg k).pc.toNat = some (wordOfBytes 0 0) := by
    rw [State.fetchWord_of_le _ (by omega), hbyte _ (by omega), hbyte _ (by omega)]
  have hnext : (nopState cfg k).advancePc = nopState cfg (k + 1) := by
    refine State.eq_of_fields rfl rfl ?_ rfl rfl rfl rfl rfl rfl rfl rfl rfl rfl
    exact BitVec.ofNat_add (0x200 + 2 * k) 2 |>.symm
  rw [step_of_nil rfl, tick_of_decode hfetch (i := .nop) rfl, ← hnext]
  rfl

/-- Settles O52: 1792 NOPs lead to PC = 0x1000, where nothing can be fetched. -/
theorem unloadedCoreRunsNopsThenFaults : Obligations.UnloadedCoreRunsNopsThenFaults := by
  intro cfg
  obtain ⟨hreach, hlast⟩ := run_of_steps (f := nopState cfg) fun _ hk => step_nopState cfg hk
  refine ⟨hreach, hlast.trans ?_⟩
  have hpc := pc_nopState cfg (Nat.le_refl 1792)
  rw [step_of_nil rfl, tick_of_gt (by omega)]
  rfl

/-! ### The jump to itself (R123, D32) -/

/-- Settles O59: the jump takes back the advance of its tick, so every step leaves the state. -/
theorem selfJumpNeverLeaves : Obligations.SelfJumpNeverLeaves := by
  intro s nnn n hpc hsched hfetch
  have htarget : targetOf nnn = s.pc := BitVec.eq_of_toNat_eq ((targetOf_toNat nnn).trans hpc.symm)
  have hstep : step s = .next s := by
    rw [step_of_nil hsched, tick_of_decode (hpc ▸ hfetch) (decode_encode _)]
    exact congrArg Host.Outcome.next (congrArg s.setPc htarget)
  exact (run_of_steps (f := fun _ => s) (n := n) fun _ _ => hstep).1 n (Nat.le_refl n)

/-! ### The placed word -/

theorem withFetchWord_eq (s : State) (w : Word) : s.withFetchWord 16 w.toNat =
    ((s.setPc (fetchablePc s)).setSchedule []).writeBytes (fetchablePc s).toNat [highByte w, lowByte w] := by
  rw [State.withFetchWord, Nat.mod_eq_of_lt w.isLt, BitVec.ofNat_toNat, BitVec.setWidth_eq, placeWord]

theorem fetchablePc_toNat_le (s : State) : (fetchablePc s).toNat + 1 ≤ 0xFFF := by
  unfold fetchablePc
  split
  · assumption
  · decide

/-- The word placed in a canonical memory is the one fetched. -/
theorem fetchWord_withFetchWord {s : State} (hs : MemoryCanonical s) (w : Word) :
    (s.withFetchWord 16 w.toNat).fetchWord (s.withFetchWord 16 w.toNat).pc.toNat = some w := by
  have hle := fetchablePc_toNat_le s
  have hread := byteAt_writeBytes_offset (s := (s.setPc (fetchablePc s)).setSchedule []) hs
    (bs := [highByte w, lowByte w]) (a := (fetchablePc s).toNat) (by simp only [List.length_cons, List.length_nil]; omega)
  have hhigh := hread 0 (by simp)
  have hlow := hread 1 (by simp)
  rw [withFetchWord_eq, State.writeBytes_pc, State.pc_setSchedule, State.pc_setPc, State.fetchWord_of_le _ hle]
  exact congrArg some ((congrArg₂ wordOfBytes hhigh hlow).trans (wordOfBytes_highByte_lowByte w))

/-- Settles O58: the placed word is fetched by the tick that comes next, and only PC, the schedule and its two bytes differ. -/
theorem placedWordRunsNext : Obligations.PlacedWordRunsNext := by
  intro s w i hs hi
  refine ⟨?runs, ?regs, ?parts, ?memory⟩
  case runs =>
    have hsched : (s.withFetchWord 16 w.toNat).schedule = [] := by rw [withFetchWord_eq, State.writeBytes_schedule]; rfl
    rw [step_of_nil hsched, tick_of_decode (fetchWord_withFetchWord hs w) hi]
  case regs => exact fun r _ => by rw [withFetchWord_eq, State.getV_writeBytes]; rfl
  case parts =>
    rw [withFetchWord_eq, State.writeBytes_eq]
    exact fun p hp => by cases p <;> simp_all [Part.kept]
  case memory =>
    rw [withFetchWord_eq, State.writeBytes_pc]
    exact keepsMemoryOutside_writeBytes _ _ rfl

end Sys2Proof.Machine
end
